-- ==== Sys2Proof/Word.lean ====
section
/-! DEFINITION. The two bit-vector types of the machine: the 32-bit quantity of registers, addresses, immediates and
encoded units (00_scope.md R6 XLEN, UNIT), and the 8-bit byte of memory (R8). -/

namespace Sys2Proof

/-- A 32-bit unsigned quantity: a register value, an address, an immediate or one encoded unit (R6, R8). -/
abbrev Word := BitVec 32

/-- A byte of memory (R8). -/
abbrev Byte := BitVec 8

end Sys2Proof
end

