-- ==== Sys2Proof/Syntax.lean ====
section
/-! DEFINITION. The instruction set as data: registers, sizes, operand units, the 42 opcodes with their formats, and
`Instr` with one constructor per row of spec/opcode_table.json (30_encoding.md R82, R90). -/

namespace Sys2Proof

/-- The eight general registers (10_state.md R20). -/
inductive Reg where
  | eax | ebx | ecx | edx | esi | edi | ebp | esp
  deriving DecidableEq, Repr

/-- The three access sizes of the memory controller (20_memory.md R55). -/
inductive Size where
  | byte | word | dword
  deriving DecidableEq, Repr

/-- A register unit of an instruction (30_encoding.md R86): one that spells a register, or one that spells none and so
raises UnknownRegister with the unit's value when it is fetched (R87). -/
inductive RegOperand where
  | reg (r : Reg)
  | unknown (u : Word)
  deriving DecidableEq, Repr

/-- A size unit of an instruction (30_encoding.md R88): a size, or a value above 2 that raises BadSize when it is
fetched. -/
inductive SizeOperand where
  | size (z : Size)
  | bad (u : Word)
  deriving DecidableEq, Repr

/-- The eight instruction formats (30_encoding.md R82). -/
inductive Format where
  | Z | N | R | RN | RR | RM | MN | MR
  deriving DecidableEq, Repr

/-- The 42 opcodes (30_encoding.md R90). -/
inductive Opcode where
  | jmp | jg | jge | jl | jle | je | jne
  | mrv | mrvr | mrva | mav | mavr
  | add | addr | sub | subr | mul | mulr | div | divr
  | and | andr | or | orr | xor | xorr | neg
  | psh | pshr | pop | call | ret
  | cmp | cmpr | cmpa
  | shr | shrr | shl | shlr
  | int | hlt | nop
  deriving DecidableEq, Repr

/-- The 42 instructions. `ra`, `rb` are register units, `rm` the register unit that holds an address, `sz` a size unit
and `imm` a number unit, in the order in which R82 lays them out. -/
inductive Instr where
  -- control (40_control.md)
  | jmp (imm : Word)
  | jg (imm : Word)
  | jge (imm : Word)
  | jl (imm : Word)
  | jle (imm : Word)
  | je (imm : Word)
  | jne (imm : Word)
  -- move (41_move.md)
  | mrv (ra : RegOperand) (imm : Word)
  | mrvr (ra rb : RegOperand)
  | mrva (ra : RegOperand) (sz : SizeOperand) (rm : RegOperand)
  | mav (sz : SizeOperand) (rm : RegOperand) (imm : Word)
  | mavr (sz : SizeOperand) (rm rb : RegOperand)
  -- arithmetic (42_arithmetic.md)
  | add (ra : RegOperand) (imm : Word)
  | addr (ra rb : RegOperand)
  | sub (ra : RegOperand) (imm : Word)
  | subr (ra rb : RegOperand)
  | mul (imm : Word)
  | mulr (ra : RegOperand)
  | div (imm : Word)
  | divr (ra : RegOperand)
  -- bitwise and unary (43_bitwise_unary.md)
  | and (ra : RegOperand) (imm : Word)
  | andr (ra rb : RegOperand)
  | or (ra : RegOperand) (imm : Word)
  | orr (ra rb : RegOperand)
  | xor (ra : RegOperand) (imm : Word)
  | xorr (ra rb : RegOperand)
  | neg (ra : RegOperand)
  -- stack, call and return (44_stack_call.md)
  | psh (imm : Word)
  | pshr (ra : RegOperand)
  | pop (ra : RegOperand)
  | call (imm : Word)
  | ret
  -- compare and shift (45_compare_shift.md)
  | cmp (ra : RegOperand) (imm : Word)
  | cmpr (ra rb : RegOperand)
  | cmpa (ra : RegOperand) (sz : SizeOperand) (rm : RegOperand)
  | shr (ra : RegOperand) (imm : Word)
  | shrr (ra rb : RegOperand)
  | shl (ra : RegOperand) (imm : Word)
  | shlr (ra rb : RegOperand)
  -- system (46_system.md)
  | int (imm : Word)
  | hlt
  | nop
  deriving DecidableEq, Repr

/-- An operand unit of an instruction by its kind (30_encoding.md R81). -/
inductive OperandUnit where
  | register (o : RegOperand)
  | size (o : SizeOperand)
  | number (v : Word)
  deriving DecidableEq, Repr

end Sys2Proof
end

