-- ==== Sys2Proof/Machine/Types.lean ====
section
/-! DEFINITION. The plain data types that the machine's state, its configuration and its console trace are made of
(10_state.md R20 to R36, 60_exceptions.md R241, R255). -/

namespace Sys2Proof.Machine

/-- The register file: eight 32-bit registers, each with one home (R20). -/
structure Regs where
  eax : Word
  ebx : Word
  ecx : Word
  edx : Word
  esi : Word
  edi : Word
  ebp : Word
  esp : Word
  deriving DecidableEq, Repr

/-- The compare flag, "tri-state (-1,0,1)" (R27): `less` is -1, `equal` is 0, `greater` is 1. -/
inductive CompareFlag where
  | less | equal | greater
  deriving DecidableEq, Repr

/-- The seven fatal conditions with the info each records (60_exceptions.md R241). -/
inductive FatalCondition where
  | stackOverflow
  | stackUnderflow
  | unknownInterrupt (selector : Word)
  | unknownOpcode (unit : Word)
  | unknownRegister (unit : Word)
  | badSize (value : Word)
  | divideByZero
  deriving DecidableEq, Repr

/-- The run status (R31): exactly one of the three. -/
inductive RunStatus where
  | running
  | halted
  | faulted (c : FatalCondition)
  deriving DecidableEq, Repr

/-- What one `int 0` records: the eight registers, `eip`, `cmpf` and `cf` at that moment (R33, R186). -/
structure Snapshot where
  regs : Regs
  eip : Word
  cmpf : CompareFlag
  cf : Bool
  deriving DecidableEq, Repr

/-- One event of the console trace (R33). -/
inductive ConsoleEvent where
  | dump (snapshot : Snapshot)
  | list (values : List Word)
  | text (bytes : List Byte)
  deriving DecidableEq, Repr

/-- The extent of one chunk of the memory controller: it covers the addresses `base .. base + len - 1` modulo
2^32 (R36, R272). The bytes of a chunk are those of the memory at these addresses, so they are not stored a second time. -/
structure Chunk where
  base : Nat
  len : Nat
  deriving DecidableEq, Repr

/-- The value of the parameter UNKNOWN_OPCODE_POLICY (00_scope.md R7). -/
inductive UnknownOpcodePolicy where
  | fault | nop
  deriving DecidableEq, Repr, Inhabited

/-- The value of the parameter SHIFT_GE32 (00_scope.md R7). -/
inductive ShiftGe32 where
  | zero | mod32
  deriving DecidableEq, Repr, Inhabited

/-- The kinds of assembly-time failure (47_assembler.md R220). -/
inductive AssemblyError where
  | valueTooLarge | unsupportedOperand | unknownStatement | undefinedLabel | duplicateLabel
  deriving DecidableEq, Repr

end Sys2Proof.Machine
end

