-- ==== Sys2Proof/Config.lean ====
section
/-! DEFINITION. What is fixed for the life of a machine: the constants of 00_scope.md R6, the three parameters of R7
left open as constants without a body, and the free values. A claim that mentions an opaque constant holds whatever its
value is. -/

namespace Sys2Proof.Config

/-- MAXW, the address-space maximum 0xFFFFFFFF (R6). -/
def maxWord : Nat := 0xFFFFFFFF

/-- ORIGIN, the program load origin, reset value of `eip` and reference point of `$` (R6). -/
def origin : Word := 0x80000000#32

/-- SP_RESET, the reset value of `esp` (R6). -/
def spReset : Word := 0xFFFFFFFF#32

/-- CHUNK_THRESHOLD, the proximity threshold of a chunk's backward growth (R6). -/
def chunkThreshold : Nat := 0xFF

/-- UNKNOWN_OPCODE_POLICY (R7, 92_eei_decisions.md D4): left open by the spec, so it has no value here
(assumption log 5). -/
opaque unknownOpcodePolicy : Machine.UnknownOpcodePolicy

/-- The default the spec gives UNKNOWN_OPCODE_POLICY (R7). -/
def defaultUnknownOpcodePolicy : Machine.UnknownOpcodePolicy := .fault

/-- SHIFT_GE32 (R7, D12): left open by the spec, so it has no value here (assumption log 5). -/
opaque shiftGe32 : Machine.ShiftGe32

/-- The default the spec gives SHIFT_GE32 (R7). -/
def defaultShiftGe32 : Machine.ShiftGe32 := .zero

/-- DUMP_FORMAT: any function from the register snapshot to text (R7, D23; assumption log 6). -/
opaque dumpFormat : Machine.Snapshot → List Char

/-- What a byte outside 0x20..0x7E displays as in the output of `int 2`: any value
(93_implementation_defined.md U9; assumption log 6). -/
opaque glyph : Byte → List Char

/-- The wording of the message that a fatal condition delivers: any value (U2; assumption log 6). -/
opaque fatalMessage : Machine.FatalCondition → String

/-- The wording of the message that an assembly-time failure delivers: any value (U2; assumption log 6). -/
opaque assemblyMessage : Machine.AssemblyError → String

/-- Free value: where in the faulting instruction `eip` is left by the n-th fatal condition
(60_exceptions.md R243, U8; assumption log 3). `Ops.raise` bounds it as R243 does. -/
opaque faultEipOffset : Nat → Nat

end Sys2Proof.Config
end

