-- ==== Sys2Proof/Machine/State.lean ====
section
/-! DEFINITION. The state of the machine as plain data (10_state.md R20 to R36), the reasons a step can stop, and the
state after power-on (R39, R270). -/

namespace Sys2Proof.Machine

/-- Why a step answers with no next state. A fatal condition is NOT one of these reasons at the moment it is raised: the
raising step answers a next state whose run status is faulted (60_exceptions.md R240; assumption log 1). -/
inductive Fault where
  /-- Raised by `step` on a halted machine: "If the status is halted or faulted, there is no step" (R254). It is the run
  result `Halted` of R255. Safe: the spec gives no next state here (assumption log 2). -/
  | halted
  /-- Raised by `step` on a faulted machine (R254). It is the run result `Fault(C, info)` of R255. Safe: the spec gives no
  next state here (assumption log 2). -/
  | fatal (c : FatalCondition)
  /-- Raised by `int 2` executed on a memory in which no byte is zero, where the string has no end. No step reaches it,
  since the operand unit of the `int 2` itself holds zero bytes (46_system.md R188). Safe: the scan has no result
  (assumption log 11). -/
  | scanNeverEnds
  deriving DecidableEq, Repr

/-- Why a step refuses an instruction. -/
inductive Refusal where
  /-- Answered by an arm of `exec` for an instruction that has no meaning yet; no arm of this model answers it. Safe. -/
  | notModelled (mnemonic : String)
  deriving DecidableEq, Repr

/-- The memory `M` of R35 as (address, byte) pairs: an address that is not listed reads as zero. -/
abbrev Memory := List Host.Cell

/-- The canonical form of a memory: addresses strictly rising and inside the 32-bit address space, and no entry equal to
the zero that an unlisted address reads as. Equal memories are then equal lists. -/
abbrev Memory.wf (m : Memory) : Prop :=
  m.Pairwise (fun c d => c.1 < d.1) ∧ ∀ c ∈ m, c.1 < 2 ^ 32 ∧ c.2 ≠ 0#8

/-- The complete state of the machine (10_state.md). -/
structure State where
  /-- The eight general registers (R20). -/
  regs : Regs
  /-- The instruction pointer `eip` (R24). -/
  eip : Word
  /-- The compare flag (R27). -/
  cmpf : CompareFlag
  /-- The carry flag (R28). -/
  cf : Bool
  /-- The halt latch (R30). -/
  halted : Bool
  /-- The fatal condition that ended the run, if one did (R31, R240). -/
  fatal : Option FatalCondition
  /-- The memory as a program observes it (R35). -/
  mem : Memory
  /-- The chunks of the memory controller, by ascending base: hidden state that the host can observe (R36). -/
  chunks : List Chunk
  /-- The console trace, oldest event first (R33). -/
  console : List ConsoleEvent
  /-- The MODEL's own field, not the spec's: how many free values have been used (assumption log 3). -/
  freeCount : Nat
  deriving DecidableEq, Repr

/-- The run status (R31): halted when the latch is set, faulted with the condition raised, else running. -/
def State.runStatus (s : State) : RunStatus :=
  if s.halted then .halted
  else match s.fatal with
    | some c => .faulted c
    | none => .running

/-- The register file after power-on or a register reset (R39). -/
def Regs.reset : Regs :=
  { eax := 0#32, ebx := 0#32, ecx := 0#32, edx := 0#32, esi := 0#32, edi := 0#32, ebp := 0#32, esp := Config.spReset }

/-- The machine right after power-on (R39, R270). -/
def State.reset : State :=
  { regs := Regs.reset
    eip := Config.origin
    cmpf := .equal
    cf := false
    halted := false
    fatal := none
    mem := []
    chunks := []
    console := []
    freeCount := 0 }

end Sys2Proof.Machine
end

