-- ==== Sys2Proof/Machine/Flags.lean ====
section
/-! DEFINITION. Every flag computation of the machine: the compare function, the conditions of the jumps, and the carry
of add and multiply (10_state.md R27 to R29, 40_control.md R119, 42_arithmetic.md R140, 45_compare_shift.md R173). -/

namespace Sys2Proof.Machine

/-- The value of the compare flag in -1, 0, 1 (R27). -/
def CompareFlag.toInt : CompareFlag → Int
  | .less => -1
  | .equal => 0
  | .greater => 1

/-- `Cmp(a, b)` for unsigned operands (R173). -/
def compareWords (a b : Word) : CompareFlag :=
  if a.toNat > b.toNat then .greater else if a.toNat < b.toNat then .less else .equal

/-- `jg` is taken iff the flag is above 0 (R111, R119). -/
def CompareFlag.isG (c : CompareFlag) : Bool := decide (c.toInt > 0)

/-- `jge` is taken iff the flag is at least 0 (R112, R119). -/
def CompareFlag.isGe (c : CompareFlag) : Bool := decide (c.toInt ≥ 0)

/-- `jl` is taken iff the flag is below 0 (R113, R119). -/
def CompareFlag.isL (c : CompareFlag) : Bool := decide (c.toInt < 0)

/-- `jle` is taken iff the flag is at most 0 (R114, R119). -/
def CompareFlag.isLe (c : CompareFlag) : Bool := decide (c.toInt ≤ 0)

/-- `je` is taken iff the flag is 0 (R115, R119). -/
def CompareFlag.isE (c : CompareFlag) : Bool := decide (c.toInt = 0)

/-- `jne` is taken iff the flag is not 0 (R116, R119). -/
def CompareFlag.isNe (c : CompareFlag) : Bool := decide (c.toInt ≠ 0)

/-- The carry of an exact result: set iff it exceeds the address-space maximum (R28, R140). -/
def carryOf (r : Nat) : Bool := decide (r > Config.maxWord)

end Sys2Proof.Machine
end

