-- ==== Sys2Proof/Machine/Alu.lean ====
section
/-! DEFINITION. The functions the ALU computes, each on exact unsigned integers and narrowed at the end
(42_arithmetic.md R140, R141, 43_bitwise_unary.md R145 to R151, 45_compare_shift.md R181). -/

namespace Sys2Proof.Machine

/-- The exact sum (R130). -/
def exactSum (a b : Word) : Nat := a.toNat + b.toNat

/-- The exact product, up to 64 bits (R134, R141). -/
def exactProduct (a b : Word) : Nat := a.toNat * b.toNat

/-- An exact result reduced modulo 2^32 (R140). -/
def narrow (r : Nat) : Word := BitVec.ofNat 32 r

/-- `max(a - b, 0)`: subtraction that saturates at zero (R132); `Nat` subtraction is exactly this. -/
def saturatingSub (a b : Word) : Word := narrow (a.toNat - b.toNat)

/-- `floor(a / b)` for a non-zero divisor (R136). -/
def quotient (a b : Word) : Word := narrow (a.toNat / b.toNat)

/-- `a mod b` for a non-zero divisor (R136). -/
def remainder (a b : Word) : Word := narrow (a.toNat % b.toNat)

/-- Bitwise AND (R145). -/
def bitAnd (a b : Word) : Word := a &&& b

/-- Bitwise OR (R147). -/
def bitOr (a b : Word) : Word := a ||| b

/-- Bitwise exclusive OR (R149). -/
def bitXor (a b : Word) : Word := a ^^^ b

/-- `neg`: 0xFFFFFFFF - a, the complement relative to the address-space maximum (R151). -/
def complement (a : Word) : Word := narrow (Config.maxWord - a.toNat)

/-- A shift by `c` of a 32-bit value, where `f` is the shift for counts below 32: a larger count gives 0 under `zero` and
is first reduced modulo 32 under `mod32` (R181, D12). A count below 32 does not depend on the parameter. -/
def shiftWith (mode : ShiftGe32) (f : Nat → Word) (c : Word) : Word :=
  if c.toNat < 32 then f c.toNat
  else match mode with
    | .zero => 0#32
    | .mod32 => f (c.toNat % 32)

/-- `Shl(a, c)`: `(a * 2^c) mod 2^32` (R181). -/
def shiftLeft (mode : ShiftGe32) (a c : Word) : Word := shiftWith mode (fun n => narrow (a.toNat * 2 ^ n)) c

/-- `Shr(a, c)`: `floor(a / 2^c)` (R181). -/
def shiftRight (mode : ShiftGe32) (a c : Word) : Word := shiftWith mode (fun n => narrow (a.toNat / 2 ^ n)) c

end Sys2Proof.Machine
end

