-- ==== Sys2Proof/Machine/Memory.lean ====
section
/-! DEFINITION. The memory controller (20_memory.md R50 to R68): the memory `M` in its canonical form, the chunk
collection that `writeByte` maintains beside it, and the controller that R51 and R52 describe with the bytes held inside
the chunks, which the host's view of the state is compared with. -/

namespace Sys2Proof.Machine

/-! ## The memory `M` (R35) -/

/-- `M(a)`: the byte listed at `a`, zero where none is listed (R35, R51). -/
def Memory.read (a : Nat) : Memory → Byte
  | [] => 0#8
  | c :: m => if c.1 = a then c.2 else Memory.read a m

/-- List the byte `b` at `a`, keeping the addresses rising. -/
def Memory.insert (a : Nat) (b : Byte) : Memory → Memory
  | [] => [(a, b)]
  | c :: m => if a < c.1 then (a, b) :: c :: m else if a = c.1 then (a, b) :: m else c :: Memory.insert a b m

/-- Set the byte at `a` to `b`; a zero byte is not listed. -/
def Memory.write (a : Nat) (b : Byte) (m : Memory) : Memory :=
  if b = 0#8 then m.filter (fun c => c.1 ≠ a) else Memory.insert a b m

/-! ## The chunk extents (R36, R52) -/

/-- The addresses `base .. base + len - 1`, modulo 2^32, contain `a` (R36, R272). The second case is that of a chunk which
passes the top of the address space; only a load makes one (assumption log 8). -/
def rangeContains (base len a : Nat) : Bool := decide (base ≤ a ∧ a < base + len ∨ a + 2 ^ 32 < base + len)

/-- The index of the address `a` in a byte run that starts at `base` and contains it: `a - base` modulo 2^32 (R52). -/
def rangeIndex (base a : Nat) : Nat := if base ≤ a then a - base else a + 2 ^ 32 - base

/-- The chunk's range contains the address (R36). -/
def Chunk.covers (c : Chunk) (a : Nat) : Bool := rangeContains c.base c.len a

/-- Cases 2 and 3 of R52 on a collection ordered by ascending base: the first chunk whose base lies above `a` is the
nearest one; it is grown down to `a` when `a` is within the threshold before its base, and else a new single-byte chunk
is put before it. -/
def placeChunk (a : Nat) : List Chunk → List Chunk
  | [] => [{ base := a, len := 1 }]
  | c :: cs =>
    if c.base ≤ a then c :: placeChunk a cs
    else if c.base - a ≤ Config.chunkThreshold then { base := a, len := c.len + (c.base - a) } :: cs
    else { base := a, len := 1 } :: c :: cs

/-- The chunk extents after `writeByte` at `a`: unchanged on a hit (case 1 of R52), else cases 2 and 3. -/
def touchChunk (a : Nat) (cs : List Chunk) : List Chunk := if cs.any (·.covers a) then cs else placeChunk a cs

/-- The bytes of a chunk, read from the memory, addresses modulo 2^32 (R36, R272). -/
def chunkBytes (m : Memory) (c : Chunk) : List Byte := (List.range c.len).map (fun i => m.read ((c.base + i) % 2 ^ 32))

/-! ## The controller as R51 and R52 describe it, the bytes inside the chunks -/

/-- A chunk with its bytes (R36). -/
structure StoredChunk where
  base : Nat
  bytes : List Byte
  deriving DecidableEq, Repr

/-- The chunk's range contains the address (R36); the range of a chunk laid by a load may wrap (R272; assumption log 8). -/
def StoredChunk.covers (c : StoredChunk) (a : Nat) : Bool := rangeContains c.base c.bytes.length a

/-- `readByte`: scan for a chunk whose range contains the address; its stored byte, else 0 (R51). -/
def controllerRead (a : Nat) : List StoredChunk → Byte
  | [] => 0#8
  | c :: cs => if c.covers a then c.bytes.getD (rangeIndex c.base a) 0#8 else controllerRead a cs

/-- Case 1 of R52: mutate in place the chunk whose range contains the address. -/
def controllerMutate (a : Nat) (b : Byte) : List StoredChunk → List StoredChunk
  | [] => []
  | c :: cs =>
    if c.covers a then { c with bytes := c.bytes.set (rangeIndex c.base a) b } :: cs
    else c :: controllerMutate a b cs

/-- Cases 2 and 3 of R52 on a collection ordered by ascending base. -/
def controllerPlace (a : Nat) (b : Byte) : List StoredChunk → List StoredChunk
  | [] => [{ base := a, bytes := [b] }]
  | c :: cs =>
    if c.base ≤ a then c :: controllerPlace a b cs
    else if c.base - a ≤ Config.chunkThreshold then
      { base := a, bytes := b :: (List.replicate (c.base - a - 1) 0#8 ++ c.bytes) } :: cs
    else { base := a, bytes := [b] } :: c :: cs

/-- `writeByte` (R52): the first of the three cases that applies. -/
def controllerWrite (a : Nat) (b : Byte) (cs : List StoredChunk) : List StoredChunk :=
  if cs.any (·.covers a) then controllerMutate a b cs
  else controllerPlace a b cs

/-- What the host observes of the memory controller: each chunk with its bytes (R36). -/
def State.storedChunks (s : State) : List StoredChunk :=
  s.chunks.map (fun c => { base := c.base, bytes := chunkBytes s.mem c })

/-! ## Byte accesses of the machine -/

/-- `readByte(a)` (R51): it changes no state. -/
def State.readByte (s : State) (a : Word) : Byte := s.mem.read a.toNat

/-- `writeByte(a, b)` (R52). -/
def State.writeByte (s : State) (a : Word) (b : Byte) : State :=
  { s with mem := s.mem.write a.toNat b, chunks := touchChunk a.toNat s.chunks }

end Sys2Proof.Machine
end

