-- ==== Sys2Proof/Machine/Units.lean ====
section
/-! DEFINITION. Units: the big-endian byte order (20_memory.md R54), and the encodings of registers and sizes as unit
values (30_encoding.md R81, R86, R88). -/

namespace Sys2Proof

/-- The byte of `v` with weight 256^k: `(v / 2^(8k)) mod 256` (20_memory.md R57). -/
def byteOf (v : Word) (k : Nat) : Byte := BitVec.ofNat 8 (v.toNat / 2 ^ (8 * k))

/-- The four bytes of a unit, most significant first (R9, R54). -/
def unitBytes (v : Word) : List Byte := [byteOf v 3, byteOf v 2, byteOf v 1, byteOf v 0]

/-- The unsigned big-endian value of a list of bytes (R9, R56). -/
def bigEndian (bs : List Byte) : Nat := bs.foldl (fun acc b => acc * 256 + b.toNat) 0

/-- The unit spelled by the first four bytes of a list. -/
def unitOf (bs : List Byte) : Word := BitVec.ofNat 32 (bigEndian (bs.take 4))

/-- The eight registers in the order of R20. -/
def Reg.all : List Reg := [.eax, .ebx, .ecx, .edx, .esi, .edi, .ebp, .esp]

/-- The register-name unit of a register (R86): its three ASCII letters and one PAD byte. -/
def Reg.unit : Reg → Word
  | .eax => 0x65617820#32
  | .ebx => 0x65627820#32
  | .ecx => 0x65637820#32
  | .edx => 0x65647820#32
  | .esi => 0x65736920#32
  | .edi => 0x65646920#32
  | .ebp => 0x65627020#32
  | .esp => 0x65737020#32

/-- `RegOf(u)` (R86): the register that the unit `u` spells, if any. -/
def regOf (u : Word) : Option Reg := Reg.all.find? (fun r => r.unit == u)

/-- The code of a size unit: 0 byte, 1 word, 2 dword (R55, R88). -/
def Size.code : Size → Word
  | .byte => 0#32
  | .word => 1#32
  | .dword => 2#32

/-- `NBytes` (R88). -/
def Size.nbytes : Size → Nat
  | .byte => 1
  | .word => 2
  | .dword => 4

/-- The size that a code names, none for a code above 2 (R88). -/
def sizeOf? (u : Word) : Option Size :=
  if u = 0#32 then some .byte else if u = 1#32 then some .word else if u = 2#32 then some .dword else none

/-- The operand units of an instruction in ascending offset order (30_encoding.md R82). -/
def Instr.operands : Instr → List OperandUnit
  | .jmp imm | .jg imm | .jge imm | .jl imm | .jle imm | .je imm | .jne imm => [.number imm]
  | .mrv ra imm => [.register ra, .number imm]
  | .mrvr ra rb => [.register ra, .register rb]
  | .mrva ra sz rm => [.register ra, .size sz, .register rm]
  | .mav sz rm imm => [.size sz, .register rm, .number imm]
  | .mavr sz rm rb => [.size sz, .register rm, .register rb]
  | .add ra imm | .sub ra imm => [.register ra, .number imm]
  | .addr ra rb | .subr ra rb => [.register ra, .register rb]
  | .mul imm | .div imm => [.number imm]
  | .mulr ra | .divr ra => [.register ra]
  | .and ra imm | .or ra imm | .xor ra imm => [.register ra, .number imm]
  | .andr ra rb | .orr ra rb | .xorr ra rb => [.register ra, .register rb]
  | .neg ra => [.register ra]
  | .psh imm => [.number imm]
  | .pshr ra | .pop ra => [.register ra]
  | .call imm => [.number imm]
  | .ret => []
  | .cmp ra imm => [.register ra, .number imm]
  | .cmpr ra rb => [.register ra, .register rb]
  | .cmpa ra sz rm => [.register ra, .size sz, .register rm]
  | .shr ra imm | .shl ra imm => [.register ra, .number imm]
  | .shrr ra rb | .shlr ra rb => [.register ra, .register rb]
  | .int imm => [.number imm]
  | .hlt | .nop => []

end Sys2Proof
end

