-- ==== Sys2Proof/Machine/Ops.lean ====
section
/-! DEFINITION. The named operations over registers, memory, stack and console that every meaning is written with, and
raising a fatal condition as one shared operation (00_scope.md R10, 60_exceptions.md R240). -/

namespace Sys2Proof.Machine

/-- What `exec` and `step` answer. -/
abbrev Result := Host.Outcome State Fault Refusal

/-! ## Registers -/

/-- `x[r]` on a register file (R10). -/
def Regs.get (g : Regs) : Reg → Word
  | .eax => g.eax
  | .ebx => g.ebx
  | .ecx => g.ecx
  | .edx => g.edx
  | .esi => g.esi
  | .edi => g.edi
  | .ebp => g.ebp
  | .esp => g.esp

/-- `x[r] <- v` on a register file (R10). -/
def Regs.set (g : Regs) (r : Reg) (v : Word) : Regs :=
  match r with
  | .eax => { g with eax := v }
  | .ebx => { g with ebx := v }
  | .ecx => { g with ecx := v }
  | .edx => { g with edx := v }
  | .esi => { g with esi := v }
  | .edi => { g with edi := v }
  | .ebp => { g with ebp := v }
  | .esp => { g with esp := v }

/-- `x[r]` (R10, R22: any of the eight registers, in any position). -/
def State.reg (s : State) (r : Reg) : Word := s.regs.get r

/-- `x[r] <- v` (R10). -/
def State.setReg (s : State) (r : Reg) (v : Word) : State := { s with regs := s.regs.set r v }

/-- `pc <- t` (R10). -/
def State.setEip (s : State) (t : Word) : State := { s with eip := t }

/-- `eip` moved past `n` bytes of fetched units, modulo 2^32 (R25, R84). -/
def State.advance (s : State) (n : Nat) : State := { s with eip := s.eip + BitVec.ofNat 32 n }

/-- `cmpf <- c` (R27). -/
def State.setCmpf (s : State) (c : CompareFlag) : State := { s with cmpf := c }

/-- `cf <- b` (R28). -/
def State.setCf (s : State) (b : Bool) : State := { s with cf := b }

/-- `halted <- true` (R30, R190). -/
def State.halt (s : State) : State := { s with halted := true }

/-! ## Memory -/

/-- The bytes at `a, a+1, .., a+n-1`, addresses modulo 2^32 (R56, R58). -/
def State.readBytes (s : State) (a : Word) : Nat → List Byte
  | 0 => []
  | n + 1 => s.readByte a :: s.readBytes (a + 1#32) n

/-- `MemRead(a, n)`: big-endian and zero-extended (R56). -/
def State.readMem (s : State) (z : Size) (a : Word) : Word := BitVec.ofNat 32 (bigEndian (s.readBytes a z.nbytes))

/-- `writeByte` of each byte in ascending order, addresses modulo 2^32 (R57, R58). -/
def State.writeBytes (s : State) (a : Word) : List Byte → State
  | [] => s
  | b :: bs => (s.writeByte a b).writeBytes (a + 1#32) bs

/-- The low bytes of `v` that an access of size `z` stores, most significant first (R57). -/
def lowBytes (z : Size) (v : Word) : List Byte :=
  match z with
  | .byte => [byteOf v 0]
  | .word => [byteOf v 1, byteOf v 0]
  | .dword => [byteOf v 3, byteOf v 2, byteOf v 1, byteOf v 0]

/-- `MemWrite(a, n, v)` (R57). -/
def State.writeMem (s : State) (z : Size) (a v : Word) : State := s.writeBytes a (lowBytes z v)

/-! ## Console -/

/-- `Emit(event)`: append one event to the console trace (R10, R33). -/
def State.emit (s : State) (e : ConsoleEvent) : State := { s with console := s.console ++ [e] }

/-! ## Fatal conditions -/

/-- `raise c` by the instruction at `eip`, whose first `fetched` bytes have been fetched: the run status becomes faulted
with `c` and the info it carries (R240), no general register, flag, memory byte or console event is written (R242), and
`eip` becomes a free value between the instruction's address and the address after its last fetched unit (R243; assumption
log 1 and 3). There is no handler, vector or saved state (R245). -/
def raise (c : FatalCondition) (fetched : Nat) (s : State) : Result :=
  .next { s with
    fatal := some c
    eip := s.eip + BitVec.ofNat 32 (Config.faultEipOffset s.freeCount % (fetched + 1))
    freeCount := s.freeCount + 1 }

/-! ## Stack -/

/-- `Push(v)` (R160); none is StackOverflow, which is checked before any change (R161). -/
def push (v : Word) (s : State) : Option State :=
  if (s.reg .esp).toNat < 4 then none
  else
    let a := s.reg .esp - 4#32
    some ((s.setReg .esp a).writeMem .dword a v)

/-- `Pop()` (R160): the popped dword and the state with `esp` raised; none is StackUnderflow, which is checked before
anything is read (R161). -/
def pop (s : State) : Option (Word × State) :=
  if (s.reg .esp).toNat > 0xFFFFFFFB then none
  else some (s.readMem .dword (s.reg .esp), s.setReg .esp (s.reg .esp + 4#32))

end Sys2Proof.Machine
end

