-- ==== Sys2Proof/Machine/Operands.lean ====
section
/-! DEFINITION. The operand forms: `FetchReg` and `FetchSize` with the conditions they raise (30_encoding.md R87, R88), and
the eight formats (R82), each of which checks its operand units in ascending offset order (R92), moves `eip` past the
instruction (R25) and then runs the operation. `s` is always the state with `eip` at the instruction's opcode unit. -/

namespace Sys2Proof.Machine

/-- `FetchReg()` of a register unit whose last byte is the `fetched`-th of the instruction (R87). -/
def withReg (o : RegOperand) (fetched : Nat) (s : State) (k : Reg → Result) : Result :=
  match o with
  | .reg r => k r
  | .unknown u => raise (.unknownRegister u) fetched s

/-- `FetchSize()` of a size unit whose last byte is the `fetched`-th of the instruction (R88). -/
def withSize (o : SizeOperand) (fetched : Nat) (s : State) (k : Size → Result) : Result :=
  match o with
  | .size z => k z
  | .bad u => raise (.badSize u) fetched s

/-- Format R: opcode, `ra` (R82). -/
def formR (ra : RegOperand) (s : State) (op : Reg → State → Result) : Result :=
  withReg ra 8 s fun a => op a (s.advance 8)

/-- Format RN: opcode, `ra`, `imm` (R82). -/
def formRN (ra : RegOperand) (s : State) (op : Reg → State → Result) : Result :=
  withReg ra 8 s fun a => op a (s.advance 12)

/-- Format RR: opcode, `ra`, `rb` (R82). -/
def formRR (ra rb : RegOperand) (s : State) (op : Reg → Reg → State → Result) : Result :=
  withReg ra 8 s fun a => withReg rb 12 s fun b => op a b (s.advance 12)

/-- Format RM: opcode, `ra`, `sz`, `rm` (R82). -/
def formRM (ra : RegOperand) (sz : SizeOperand) (rm : RegOperand) (s : State)
    (op : Reg → Size → Reg → State → Result) : Result :=
  withReg ra 8 s fun a => withSize sz 12 s fun z => withReg rm 16 s fun m => op a z m (s.advance 16)

/-- Format MN: opcode, `sz`, `rm`, `imm` (R82). -/
def formMN (sz : SizeOperand) (rm : RegOperand) (s : State) (op : Size → Reg → State → Result) : Result :=
  withSize sz 8 s fun z => withReg rm 12 s fun m => op z m (s.advance 16)

/-- Format MR: opcode, `sz`, `rm`, `rb` (R82). -/
def formMR (sz : SizeOperand) (rm rb : RegOperand) (s : State) (op : Size → Reg → Reg → State → Result) : Result :=
  withSize sz 8 s fun z => withReg rm 12 s fun m => withReg rb 16 s fun b => op z m b (s.advance 16)

/-- The effective address of a memory operand: the full value of the address register, nothing added (R126). -/
def State.effectiveAddress (s : State) (rm : Reg) : Word := s.reg rm

/-- `x[ra] <- f(x[ra], imm)`: the immediate member of a pair that writes its first register and no flag (R138). -/
def registerImmediate (f : Word → Word → Word) (ra : RegOperand) (imm : Word) (s : State) : Result :=
  formRN ra s fun a s => .next (s.setReg a (f (s.reg a) imm))

/-- `x[ra] <- f(x[ra], x[rb])`: the register member of such a pair (R138). -/
def registerRegister (f : Word → Word → Word) (ra rb : RegOperand) (s : State) : Result :=
  formRR ra rb s fun a b s => .next (s.setReg a (f (s.reg a) (s.reg b)))

end Sys2Proof.Machine
end

