-- ==== Sys2Proof/Machine/Arithmetic.lean ====
section
/-! DEFINITION. The arithmetic instructions (42_arithmetic.md). Add and multiply write `cf` on every execution, subtract
and divide write no flag (R140). -/

namespace Sys2Proof.Machine

/-- Write an exact result to a register modulo 2^32 and its carry to `cf` (R140). -/
def writeWithCarry (a : Reg) (r : Nat) (s : State) : State := (s.setReg a (narrow r)).setCf (carryOf r)

/-- `eax` and `edx` get the quotient and the remainder of the old `eax` by `b` (R136, R139). -/
def writeDivision (b : Word) (s : State) : State :=
  (s.setReg .eax (quotient (s.reg .eax) b)).setReg .edx (remainder (s.reg .eax) b)

/-- Divide by `b` the `eax` of the state `s` of an 8-byte division; a zero divisor raises DivideByZero before anything is
written (R136, R137). -/
def divideBy (b : Word) (s : State) : Result :=
  if b = 0#32 then raise .divideByZero 8 s else .next (writeDivision b (s.advance 8))

/-- `add ra, imm` (R130). -/
def execAdd (ra : RegOperand) (imm : Word) (s : State) : Result :=
  formRN ra s fun a s => .next (writeWithCarry a (exactSum (s.reg a) imm) s)

/-- `addr ra, rb` (R131). -/
def execAddr (ra rb : RegOperand) (s : State) : Result :=
  formRR ra rb s fun a b s => .next (writeWithCarry a (exactSum (s.reg a) (s.reg b)) s)

/-- `sub ra, imm` (R132). -/
def execSub (ra : RegOperand) (imm : Word) (s : State) : Result := registerImmediate saturatingSub ra imm s

/-- `subr ra, rb` (R133). -/
def execSubr (ra rb : RegOperand) (s : State) : Result := registerRegister saturatingSub ra rb s

/-- `mul imm` (R134). -/
def execMul (imm : Word) (s : State) : Result :=
  .next (writeWithCarry .eax (exactProduct (s.reg .eax) imm) (s.advance 8))

/-- `mulr ra` (R135). -/
def execMulr (ra : RegOperand) (s : State) : Result :=
  formR ra s fun a s => .next (writeWithCarry .eax (exactProduct (s.reg .eax) (s.reg a)) s)

/-- `div imm` (R136). -/
def execDiv (imm : Word) (s : State) : Result := divideBy imm s

/-- `divr ra`: the divisor register is read before either result is written (R137). -/
def execDivr (ra : RegOperand) (s : State) : Result := withReg ra 8 s fun a => divideBy (s.reg a) s

end Sys2Proof.Machine
end

