-- ==== Sys2Proof/Machine/Bitwise.lean ====
section
/-! DEFINITION. The bitwise and unary instructions (43_bitwise_unary.md); none touches a flag (R152). -/

namespace Sys2Proof.Machine

/-- `and ra, imm` (R145). -/
def execAnd (ra : RegOperand) (imm : Word) (s : State) : Result := registerImmediate bitAnd ra imm s

/-- `andr ra, rb` (R146). -/
def execAndr (ra rb : RegOperand) (s : State) : Result := registerRegister bitAnd ra rb s

/-- `or ra, imm` (R147). -/
def execOr (ra : RegOperand) (imm : Word) (s : State) : Result := registerImmediate bitOr ra imm s

/-- `orr ra, rb` (R148). -/
def execOrr (ra rb : RegOperand) (s : State) : Result := registerRegister bitOr ra rb s

/-- `xor ra, imm` (R149). -/
def execXor (ra : RegOperand) (imm : Word) (s : State) : Result := registerImmediate bitXor ra imm s

/-- `xorr ra, rb` (R150). -/
def execXorr (ra rb : RegOperand) (s : State) : Result := registerRegister bitXor ra rb s

/-- `neg ra` (R151). -/
def execNeg (ra : RegOperand) (s : State) : Result :=
  formR ra s fun a s => .next (s.setReg a (complement (s.reg a)))

end Sys2Proof.Machine
end

