-- ==== Sys2Proof/Machine/CompareShift.lean ====
section
/-! DEFINITION. The compare and shift instructions (45_compare_shift.md). A compare writes `cmpf` only (R173), a shift its
first register only (R182). -/

namespace Sys2Proof.Machine

/-- `cmp ra, imm` (R170). -/
def execCmp (ra : RegOperand) (imm : Word) (s : State) : Result :=
  formRN ra s fun a s => .next (s.setCmpf (compareWords (s.reg a) imm))

/-- `cmpr ra, rb` (R171). -/
def execCmpr (ra rb : RegOperand) (s : State) : Result :=
  formRR ra rb s fun a b s => .next (s.setCmpf (compareWords (s.reg a) (s.reg b)))

/-- `cmpa ra, sz [rm]`: the full register against the zero-extended memory value (R172). -/
def execCmpa (ra : RegOperand) (sz : SizeOperand) (rm : RegOperand) (s : State) : Result :=
  formRM ra sz rm s fun a z m s => .next (s.setCmpf (compareWords (s.reg a) (s.readMem z (s.effectiveAddress m))))

/-- `shr ra, imm` (R175). -/
def execShr (ra : RegOperand) (imm : Word) (s : State) : Result :=
  registerImmediate (shiftRight Config.shiftGe32) ra imm s

/-- `shrr ra, rb` (R176). -/
def execShrr (ra rb : RegOperand) (s : State) : Result := registerRegister (shiftRight Config.shiftGe32) ra rb s

/-- `shl ra, imm` (R177). -/
def execShl (ra : RegOperand) (imm : Word) (s : State) : Result :=
  registerImmediate (shiftLeft Config.shiftGe32) ra imm s

/-- `shlr ra, rb` (R178). -/
def execShlr (ra rb : RegOperand) (s : State) : Result := registerRegister (shiftLeft Config.shiftGe32) ra rb s

end Sys2Proof.Machine
end

