-- ==== Sys2Proof/Machine/Control.lean ====
section
/-! DEFINITION. The control instructions (40_control.md). Format N: the target unit is fetched whether or not the jump is
taken, so `eip` is moved past both units first (R117), and the target is used as it stands (R118). -/

namespace Sys2Proof.Machine

/-- Fetch the target `imm`, then load it into `eip` if the condition holds (R117). -/
def jumpIf (taken : Bool) (imm : Word) (s : State) : Result :=
  .next (if taken then (s.advance 8).setEip imm else s.advance 8)

/-- `jmp imm` (R110). -/
def execJmp (imm : Word) (s : State) : Result := jumpIf true imm s

/-- `jg imm` (R111). -/
def execJg (imm : Word) (s : State) : Result := jumpIf s.cmpf.isG imm s

/-- `jge imm` (R112). -/
def execJge (imm : Word) (s : State) : Result := jumpIf s.cmpf.isGe imm s

/-- `jl imm` (R113). -/
def execJl (imm : Word) (s : State) : Result := jumpIf s.cmpf.isL imm s

/-- `jle imm` (R114). -/
def execJle (imm : Word) (s : State) : Result := jumpIf s.cmpf.isLe imm s

/-- `je imm` (R115). -/
def execJe (imm : Word) (s : State) : Result := jumpIf s.cmpf.isE imm s

/-- `jne imm` (R116). -/
def execJne (imm : Word) (s : State) : Result := jumpIf s.cmpf.isNe imm s

end Sys2Proof.Machine
end

