-- ==== Sys2Proof/Machine/Move.lean ====
section
/-! DEFINITION. The move instructions (41_move.md). -/

namespace Sys2Proof.Machine

/-- `mrv ra, imm` (R121). -/
def execMrv (ra : RegOperand) (imm : Word) (s : State) : Result :=
  formRN ra s fun a s => .next (s.setReg a imm)

/-- `mrvr ra, rb` (R122). -/
def execMrvr (ra rb : RegOperand) (s : State) : Result :=
  formRR ra rb s fun a b s => .next (s.setReg a (s.reg b))

/-- `mrva ra, sz [rm]`: the load, zero-extended; the address is read before the destination is written (R123). -/
def execMrva (ra : RegOperand) (sz : SizeOperand) (rm : RegOperand) (s : State) : Result :=
  formRM ra sz rm s fun a z m s => .next (s.setReg a (s.readMem z (s.effectiveAddress m)))

/-- `mav sz [rm], imm`: store the low bytes of an immediate (R124). -/
def execMav (sz : SizeOperand) (rm : RegOperand) (imm : Word) (s : State) : Result :=
  formMN sz rm s fun z m s => .next (s.writeMem z (s.effectiveAddress m) imm)

/-- `mavr sz [rm], rb`: store the low bytes of a register (R125). -/
def execMavr (sz : SizeOperand) (rm rb : RegOperand) (s : State) : Result :=
  formMR sz rm rb s fun z m b s => .next (s.writeMem z (s.effectiveAddress m) (s.reg b))

end Sys2Proof.Machine
end

