-- ==== Sys2Proof/Machine/Stack.lean ====
section
/-! DEFINITION. The stack, call and return instructions (44_stack_call.md). A check that fails raises its condition on the
state before the instruction, so nothing of it happens (R161). -/

namespace Sys2Proof.Machine

/-- Push `v` as the operation of an 8-byte instruction at `s` (R155, R156). -/
def pushOrOverflow (v : Word) (s : State) : Result :=
  match push v (s.advance 8) with
  | none => raise .stackOverflow 8 s
  | some t => .next t

/-- `psh imm` (R155). -/
def execPsh (imm : Word) (s : State) : Result := pushOrOverflow imm s

/-- `pshr ra`: the register is read before `esp` is lowered (R156). -/
def execPshr (ra : RegOperand) (s : State) : Result := withReg ra 8 s fun a => pushOrOverflow (s.reg a) s

/-- `pop ra`: `esp` is raised before the destination is written (R157). -/
def execPop (ra : RegOperand) (s : State) : Result :=
  withReg ra 8 s fun a =>
    match pop (s.advance 8) with
    | none => raise .stackUnderflow 8 s
    | some (v, t) => .next (t.setReg a v)

/-- `call imm`: push the address after the call, then jump (R158). -/
def execCall (imm : Word) (s : State) : Result :=
  match push (s.advance 8).eip (s.advance 8) with
  | none => raise .stackOverflow 8 s
  | some t => .next (t.setEip imm)

/-- `ret`: the popped dword becomes `eip` (R159). -/
def execRet (s : State) : Result :=
  match pop (s.advance 4) with
  | none => raise .stackUnderflow 4 s
  | some (v, t) => .next (t.setEip v)

end Sys2Proof.Machine
end

