-- ==== Sys2Proof/Machine/System.lean ====
section
/-! DEFINITION. The system instructions and the unrecognised opcode (46_system.md), and how console events are rendered
as text (R186 to R188). -/

namespace Sys2Proof.Machine

/-- The snapshot that `int 0` records (R186). -/
def State.snapshot (s : State) : Snapshot := { regs := s.regs, eip := s.eip, cmpf := s.cmpf, cf := s.cf }

/-- `count` consecutive elements of size `z` from `a` upward, each big-endian and zero-extended, addresses modulo 2^32
(R187). -/
def State.readElements (s : State) (z : Size) (a : Word) : Nat → List Word
  | 0 => []
  | n + 1 => s.readMem z a :: s.readElements z (a + BitVec.ofNat 32 z.nbytes) n

/-- The bytes from `a` upward before the first zero byte, addresses modulo 2^32; none if the first `fuel` bytes hold no
zero (R188). -/
def State.readString (s : State) (a : Word) : Nat → Option (List Byte)
  | 0 => none
  | n + 1 => if s.readByte a = 0#8 then some [] else (s.readString (a + 1#32) n).map (s.readByte a :: ·)

/-- `Int0()`: record the register set, `eip` being already past the `int` (R186). -/
def int0 (s : State) : Result := .next ((s.advance 8).emit (.dump (s.advance 8).snapshot))

/-- `Int1()`: the width selector in `edx` is checked before anything is read or emitted (R187). -/
def int1 (s : State) : Result :=
  match sizeOf? (s.reg .edx) with
  | none => raise (.badSize (s.reg .edx)) 8 s
  | some z => .next ((s.advance 8).emit (.list (s.readElements z (s.reg .esi) (s.reg .eax).toNat)))

/-- `Int2()`: the NUL-terminated string at `esi`. All 2^32 addresses are scanned before the scan has no end (R188;
assumption log 11). -/
def int2 (s : State) : Result :=
  match s.readString (s.reg .esi) 4294967296 with
  | none => .fault .scanNeverEnds
  | some bs => .next ((s.advance 8).emit (.text bs))

/-- `int imm` (R185, R189). -/
def execInt (imm : Word) (s : State) : Result :=
  if imm = 0#32 then int0 s
  else if imm = 1#32 then int1 s
  else if imm = 2#32 then int2 s
  else raise (.unknownInterrupt imm) 8 s

/-- `hlt` (R190). -/
def execHlt (s : State) : Result := .next (s.advance 4).halt

/-- `nop` (R191). -/
def execNop (s : State) : Result := .next (s.advance 4)

/-- An opcode unit `u` that selects no instruction: under `fault` it raises UnknownOpcode, under `nop` only the opcode
unit is consumed (R192). -/
def unrecognisedOpcode (policy : UnknownOpcodePolicy) (u : Word) (s : State) : Result :=
  match policy with
  | .fault => raise (.unknownOpcode u) 4 s
  | .nop => .next (s.advance 4)

/-! ## Rendering the console trace -/

/-- What a byte of `int 2` output displays as: the ASCII character for 0x20..0x7E, any value otherwise (R188, U9). -/
def displayByte (b : Byte) : List Char :=
  if 0x20 ≤ b.toNat ∧ b.toNat ≤ 0x7E then [Char.ofNat b.toNat] else Config.glyph b

/-- An unsigned decimal numeral without leading zeros (R187). -/
def decimal (v : Word) : List Char := Nat.toDigits 10 v.toNat

/-- The text of an event: the dump in DUMP_FORMAT, the list as decimals joined by single spaces, the string byte by byte
(R186 to R188). -/
def ConsoleEvent.render : ConsoleEvent → List Char
  | .dump d => Config.dumpFormat d
  | .list vs => List.intercalate [' '] (vs.map decimal)
  | .text bs => bs.flatMap displayByte

end Sys2Proof.Machine
end

