-- ==== Sys2Proof/Machine/Dispatch.lean ====
section
/-! DEFINITION. The meaning of every instruction, one arm per constructor. -/

namespace Sys2Proof.Machine

/-- The meaning of an instruction whose opcode unit stands at `eip` (60_exceptions.md R254). -/
def exec (i : Instr) (s : State) : Host.Outcome State Fault Refusal :=
  match i with
  | .jmp imm => Sys2Proof.Machine.execJmp imm s
  | .jg imm => Sys2Proof.Machine.execJg imm s
  | .jge imm => Sys2Proof.Machine.execJge imm s
  | .jl imm => Sys2Proof.Machine.execJl imm s
  | .jle imm => Sys2Proof.Machine.execJle imm s
  | .je imm => Sys2Proof.Machine.execJe imm s
  | .jne imm => Sys2Proof.Machine.execJne imm s
  | .mrv ra imm => Sys2Proof.Machine.execMrv ra imm s
  | .mrvr ra rb => Sys2Proof.Machine.execMrvr ra rb s
  | .mrva ra sz rm => Sys2Proof.Machine.execMrva ra sz rm s
  | .mav sz rm imm => Sys2Proof.Machine.execMav sz rm imm s
  | .mavr sz rm rb => Sys2Proof.Machine.execMavr sz rm rb s
  | .add ra imm => Sys2Proof.Machine.execAdd ra imm s
  | .addr ra rb => Sys2Proof.Machine.execAddr ra rb s
  | .sub ra imm => Sys2Proof.Machine.execSub ra imm s
  | .subr ra rb => Sys2Proof.Machine.execSubr ra rb s
  | .mul imm => Sys2Proof.Machine.execMul imm s
  | .mulr ra => Sys2Proof.Machine.execMulr ra s
  | .div imm => Sys2Proof.Machine.execDiv imm s
  | .divr ra => Sys2Proof.Machine.execDivr ra s
  | .and ra imm => Sys2Proof.Machine.execAnd ra imm s
  | .andr ra rb => Sys2Proof.Machine.execAndr ra rb s
  | .or ra imm => Sys2Proof.Machine.execOr ra imm s
  | .orr ra rb => Sys2Proof.Machine.execOrr ra rb s
  | .xor ra imm => Sys2Proof.Machine.execXor ra imm s
  | .xorr ra rb => Sys2Proof.Machine.execXorr ra rb s
  | .neg ra => Sys2Proof.Machine.execNeg ra s
  | .psh imm => Sys2Proof.Machine.execPsh imm s
  | .pshr ra => Sys2Proof.Machine.execPshr ra s
  | .pop ra => Sys2Proof.Machine.execPop ra s
  | .call imm => Sys2Proof.Machine.execCall imm s
  | .ret => Sys2Proof.Machine.execRet s
  | .cmp ra imm => Sys2Proof.Machine.execCmp ra imm s
  | .cmpr ra rb => Sys2Proof.Machine.execCmpr ra rb s
  | .cmpa ra sz rm => Sys2Proof.Machine.execCmpa ra sz rm s
  | .shr ra imm => Sys2Proof.Machine.execShr ra imm s
  | .shrr ra rb => Sys2Proof.Machine.execShrr ra rb s
  | .shl ra imm => Sys2Proof.Machine.execShl ra imm s
  | .shlr ra rb => Sys2Proof.Machine.execShlr ra rb s
  | .int imm => Sys2Proof.Machine.execInt imm s
  | .hlt => Sys2Proof.Machine.execHlt s
  | .nop => Sys2Proof.Machine.execNop s

end Sys2Proof.Machine
end

