-- ==== Sys2Proof/WellFormed.lean ====
section
/-! DEFINITION. Which terms of `Instr` are instructions that some bytes encode: an operand kept as `unknown` must be a
unit that spells no register, and a size kept as `bad` must be a code above 2 (30_encoding.md R86 to R88; assumption
log 9). -/

namespace Sys2Proof

/-- A register operand is well formed unless it calls a unit unknown that spells a register (R86). -/
def RegOperand.wellFormed : RegOperand → Bool
  | .reg _ => true
  | .unknown u => (regOf u).isNone

/-- A size operand is well formed unless it calls a code bad that names a size (R88). -/
def SizeOperand.wellFormed : SizeOperand → Bool
  | .size _ => true
  | .bad u => (sizeOf? u).isNone

/-- An operand unit is well formed when its register or size operand is. -/
def OperandUnit.wellFormed : OperandUnit → Bool
  | .register o => o.wellFormed
  | .size o => o.wellFormed
  | .number _ => true

/-- An instruction is well formed when each of its operand units is. -/
def Instr.wellFormed (i : Instr) : Bool := i.operands.all OperandUnit.wellFormed

end Sys2Proof
end

