-- ==== Sys2Proof/Decode.lean ====
section
/-! DEFINITION. Decoding units and bytes into instructions, total and rejecting by name, and after it the encoder, both
written from the tables of 30_encoding.md R81, R82, R86, R88 and R90. -/

namespace Sys2Proof

/-! ## The opcode map (R90) -/

/-- The 42 opcodes in the order of R90. -/
def Opcode.all : List Opcode :=
  [.jmp, .jg, .jge, .jl, .jle, .je, .jne,
   .mrv, .mrvr, .mrva, .mav, .mavr,
   .add, .addr, .sub, .subr, .mul, .mulr, .div, .divr,
   .and, .andr, .or, .orr, .xor, .xorr, .neg,
   .psh, .pshr, .pop, .call, .ret,
   .cmp, .cmpr, .cmpa, .shr, .shrr, .shl, .shlr,
   .int, .hlt, .nop]

/-- The `match` value of an opcode: its opcode unit read big-endian (R90). -/
def Opcode.matchValue : Opcode → Word
  | .jmp => 0x6A6D7020#32
  | .jg => 0x6A672020#32
  | .jge => 0x6A676520#32
  | .jl => 0x6A6C2020#32
  | .jle => 0x6A6C6520#32
  | .je => 0x6A652020#32
  | .jne => 0x6A6E6520#32
  | .mrv => 0x6D727620#32
  | .mrvr => 0x6D727672#32
  | .mrva => 0x6D727661#32
  | .mav => 0x6D617620#32
  | .mavr => 0x6D617672#32
  | .add => 0x61646420#32
  | .addr => 0x61646472#32
  | .sub => 0x73756220#32
  | .subr => 0x73756272#32
  | .mul => 0x6D756C20#32
  | .mulr => 0x6D756C72#32
  | .div => 0x64697620#32
  | .divr => 0x64697672#32
  | .and => 0x616E6420#32
  | .andr => 0x616E6472#32
  | .or => 0x6F722020#32
  | .orr => 0x6F727220#32
  | .xor => 0x786F7220#32
  | .xorr => 0x786F7272#32
  | .neg => 0x6E656720#32
  | .psh => 0x70736820#32
  | .pshr => 0x70736872#32
  | .pop => 0x706F7020#32
  | .call => 0x63616C6C#32
  | .ret => 0x72657420#32
  | .cmp => 0x636D7020#32
  | .cmpr => 0x636D7072#32
  | .cmpa => 0x636D7061#32
  | .shr => 0x73687220#32
  | .shrr => 0x73687272#32
  | .shl => 0x73686C20#32
  | .shlr => 0x73686C72#32
  | .int => 0x696E7420#32
  | .hlt => 0x686C7420#32
  | .nop => 0x6E6F7020#32

/-- The ASCII codes of an opcode's mnemonic (R81, R90). -/
def Opcode.spelling : Opcode → List Byte
  | .jmp => [0x6A#8, 0x6D#8, 0x70#8]
  | .jg => [0x6A#8, 0x67#8]
  | .jge => [0x6A#8, 0x67#8, 0x65#8]
  | .jl => [0x6A#8, 0x6C#8]
  | .jle => [0x6A#8, 0x6C#8, 0x65#8]
  | .je => [0x6A#8, 0x65#8]
  | .jne => [0x6A#8, 0x6E#8, 0x65#8]
  | .mrv => [0x6D#8, 0x72#8, 0x76#8]
  | .mrvr => [0x6D#8, 0x72#8, 0x76#8, 0x72#8]
  | .mrva => [0x6D#8, 0x72#8, 0x76#8, 0x61#8]
  | .mav => [0x6D#8, 0x61#8, 0x76#8]
  | .mavr => [0x6D#8, 0x61#8, 0x76#8, 0x72#8]
  | .add => [0x61#8, 0x64#8, 0x64#8]
  | .addr => [0x61#8, 0x64#8, 0x64#8, 0x72#8]
  | .sub => [0x73#8, 0x75#8, 0x62#8]
  | .subr => [0x73#8, 0x75#8, 0x62#8, 0x72#8]
  | .mul => [0x6D#8, 0x75#8, 0x6C#8]
  | .mulr => [0x6D#8, 0x75#8, 0x6C#8, 0x72#8]
  | .div => [0x64#8, 0x69#8, 0x76#8]
  | .divr => [0x64#8, 0x69#8, 0x76#8, 0x72#8]
  | .and => [0x61#8, 0x6E#8, 0x64#8]
  | .andr => [0x61#8, 0x6E#8, 0x64#8, 0x72#8]
  | .or => [0x6F#8, 0x72#8]
  | .orr => [0x6F#8, 0x72#8, 0x72#8]
  | .xor => [0x78#8, 0x6F#8, 0x72#8]
  | .xorr => [0x78#8, 0x6F#8, 0x72#8, 0x72#8]
  | .neg => [0x6E#8, 0x65#8, 0x67#8]
  | .psh => [0x70#8, 0x73#8, 0x68#8]
  | .pshr => [0x70#8, 0x73#8, 0x68#8, 0x72#8]
  | .pop => [0x70#8, 0x6F#8, 0x70#8]
  | .call => [0x63#8, 0x61#8, 0x6C#8, 0x6C#8]
  | .ret => [0x72#8, 0x65#8, 0x74#8]
  | .cmp => [0x63#8, 0x6D#8, 0x70#8]
  | .cmpr => [0x63#8, 0x6D#8, 0x70#8, 0x72#8]
  | .cmpa => [0x63#8, 0x6D#8, 0x70#8, 0x61#8]
  | .shr => [0x73#8, 0x68#8, 0x72#8]
  | .shrr => [0x73#8, 0x68#8, 0x72#8, 0x72#8]
  | .shl => [0x73#8, 0x68#8, 0x6C#8]
  | .shlr => [0x73#8, 0x68#8, 0x6C#8, 0x72#8]
  | .int => [0x69#8, 0x6E#8, 0x74#8]
  | .hlt => [0x68#8, 0x6C#8, 0x74#8]
  | .nop => [0x6E#8, 0x6F#8, 0x70#8]

/-- The PAD byte of mnemonic and register units (R6, D1). -/
def padByte : Byte := 0x20#8

/-- The text of a unit right-trimmed: trailing PAD bytes are removed, no others (R85). -/
def trimmedText (u : Word) : List Byte := ((unitBytes u).reverse.dropWhile (· == padByte)).reverse

/-- The opcode that an opcode unit selects: the one whose `match` value it equals, if any (R85). -/
def opcodeOf (u : Word) : Option Opcode := Opcode.all.find? (fun o => o.matchValue == u)

/-- The opcode whose mnemonic the right-trimmed text of a unit equals exactly, if any: R85's first wording. -/
def opcodeOfText (u : Word) : Option Opcode := Opcode.all.find? (fun o => o.spelling == trimmedText u)

/-- The format of an opcode (R82, R90). -/
def Opcode.format : Opcode → Format
  | .ret | .hlt | .nop => .Z
  | .jmp | .jg | .jge | .jl | .jle | .je | .jne | .mul | .div | .psh | .call | .int => .N
  | .mulr | .divr | .neg | .pshr | .pop => .R
  | .mrv | .add | .sub | .and | .or | .xor | .cmp | .shr | .shl => .RN
  | .mrvr | .addr | .subr | .andr | .orr | .xorr | .cmpr | .shrr | .shlr => .RR
  | .mrva | .cmpa => .RM
  | .mav => .MN
  | .mavr => .MR

/-- The encoded length in bytes of a format (R82). -/
def Format.length : Format → Nat
  | .Z => 4
  | .N | .R => 8
  | .RN | .RR => 12
  | .RM | .MN | .MR => 16

/-- The encoded length of the instructions of an opcode: a function of the opcode unit alone (R83). -/
def Opcode.length (o : Opcode) : Nat := o.format.length

/-! ## Decoding -/

/-- A register unit as an operand (R86, R87). -/
def registerOperand (u : Word) : RegOperand :=
  match regOf u with
  | some r => .reg r
  | none => .unknown u

/-- A size unit as an operand (R88). -/
def sizeOperand (u : Word) : SizeOperand :=
  match sizeOf? u with
  | some z => .size z
  | none => .bad u

/-- The instruction of an opcode whose operand units are `u1`, `u2`, `u3`; units beyond its format are not read (R82). -/
def Opcode.instr (o : Opcode) (u1 u2 u3 : Word) : Instr :=
  match o with
  | .jmp => .jmp u1
  | .jg => .jg u1
  | .jge => .jge u1
  | .jl => .jl u1
  | .jle => .jle u1
  | .je => .je u1
  | .jne => .jne u1
  | .mrv => .mrv (registerOperand u1) u2
  | .mrvr => .mrvr (registerOperand u1) (registerOperand u2)
  | .mrva => .mrva (registerOperand u1) (sizeOperand u2) (registerOperand u3)
  | .mav => .mav (sizeOperand u1) (registerOperand u2) u3
  | .mavr => .mavr (sizeOperand u1) (registerOperand u2) (registerOperand u3)
  | .add => .add (registerOperand u1) u2
  | .addr => .addr (registerOperand u1) (registerOperand u2)
  | .sub => .sub (registerOperand u1) u2
  | .subr => .subr (registerOperand u1) (registerOperand u2)
  | .mul => .mul u1
  | .mulr => .mulr (registerOperand u1)
  | .div => .div u1
  | .divr => .divr (registerOperand u1)
  | .and => .and (registerOperand u1) u2
  | .andr => .andr (registerOperand u1) (registerOperand u2)
  | .or => .or (registerOperand u1) u2
  | .orr => .orr (registerOperand u1) (registerOperand u2)
  | .xor => .xor (registerOperand u1) u2
  | .xorr => .xorr (registerOperand u1) (registerOperand u2)
  | .neg => .neg (registerOperand u1)
  | .psh => .psh u1
  | .pshr => .pshr (registerOperand u1)
  | .pop => .pop (registerOperand u1)
  | .call => .call u1
  | .ret => .ret
  | .cmp => .cmp (registerOperand u1) u2
  | .cmpr => .cmpr (registerOperand u1) (registerOperand u2)
  | .cmpa => .cmpa (registerOperand u1) (sizeOperand u2) (registerOperand u3)
  | .shr => .shr (registerOperand u1) u2
  | .shrr => .shrr (registerOperand u1) (registerOperand u2)
  | .shl => .shl (registerOperand u1) u2
  | .shlr => .shlr (registerOperand u1) (registerOperand u2)
  | .int => .int u1
  | .hlt => .hlt
  | .nop => .nop

/-- Decode the instruction whose opcode unit is `u0` and whose next units are `u1`, `u2`, `u3`. A unit that selects no
opcode is rejected with its value (R85, R91). -/
def decodeUnits (u0 u1 u2 u3 : Word) : Except Word Instr :=
  match opcodeOf u0 with
  | some o => .ok (o.instr u1 u2 u3)
  | none => .error u0

/-- Why a list of bytes is no instruction. -/
inductive Reject where
  /-- Fewer bytes than the opcode unit, or than the opcode's length, asks for. -/
  | truncated
  /-- The opcode unit selects no instruction (R91). -/
  | unknownOpcode (u : Word)
  deriving DecidableEq, Repr

/-- Decode the instruction at the head of a list of bytes, and the bytes after it. Total: any list of bytes is decoded
or rejected by name. -/
def decode (bs : List Byte) : Except Reject (Instr × List Byte) :=
  if bs.length < 4 then .error .truncated
  else match opcodeOf (unitOf bs) with
    | none => .error (.unknownOpcode (unitOf bs))
    | some o =>
      if bs.length < o.length then .error .truncated
      else .ok (o.instr (unitOf (bs.drop 4)) (unitOf (bs.drop 8)) (unitOf (bs.drop 12)), bs.drop o.length)

/-- Decode a list of bytes as consecutive instructions; `fuel` bounds their number. -/
def decodeStream : Nat → List Byte → Except Reject (List Instr)
  | _, [] => .ok []
  | 0, _ :: _ => .error .truncated
  | fuel + 1, b :: bs =>
    match decode (b :: bs) with
    | .error e => .error e
    | .ok (i, rest) =>
      match decodeStream fuel rest with
      | .error e => .error e
      | .ok is => .ok (i :: is)

/-! ## Encoding -/

/-- The unit of a register operand (R86). -/
def RegOperand.unit : RegOperand → Word
  | .reg r => r.unit
  | .unknown u => u

/-- The unit of a size operand (R88). -/
def SizeOperand.unit : SizeOperand → Word
  | .size z => z.code
  | .bad u => u

/-- The opcode of an instruction (R90). -/
def Instr.opcode : Instr → Opcode
  | .jmp _ => .jmp
  | .jg _ => .jg
  | .jge _ => .jge
  | .jl _ => .jl
  | .jle _ => .jle
  | .je _ => .je
  | .jne _ => .jne
  | .mrv _ _ => .mrv
  | .mrvr _ _ => .mrvr
  | .mrva _ _ _ => .mrva
  | .mav _ _ _ => .mav
  | .mavr _ _ _ => .mavr
  | .add _ _ => .add
  | .addr _ _ => .addr
  | .sub _ _ => .sub
  | .subr _ _ => .subr
  | .mul _ => .mul
  | .mulr _ => .mulr
  | .div _ => .div
  | .divr _ => .divr
  | .and _ _ => .and
  | .andr _ _ => .andr
  | .or _ _ => .or
  | .orr _ _ => .orr
  | .xor _ _ => .xor
  | .xorr _ _ => .xorr
  | .neg _ => .neg
  | .psh _ => .psh
  | .pshr _ => .pshr
  | .pop _ => .pop
  | .call _ => .call
  | .ret => .ret
  | .cmp _ _ => .cmp
  | .cmpr _ _ => .cmpr
  | .cmpa _ _ _ => .cmpa
  | .shr _ _ => .shr
  | .shrr _ _ => .shrr
  | .shl _ _ => .shl
  | .shlr _ _ => .shlr
  | .int _ => .int
  | .hlt => .hlt
  | .nop => .nop

/-- The unit of an operand unit by its kind (R81). -/
def OperandUnit.unit : OperandUnit → Word
  | .register o => o.unit
  | .size o => o.unit
  | .number v => v

/-- The units of an instruction: its opcode unit, then its operand units in offset order (R80, R82). -/
def encode (i : Instr) : List Word := i.opcode.matchValue :: i.operands.map OperandUnit.unit

/-- The bytes of an instruction, each unit big-endian (R54, R80). -/
def encodeBytes (i : Instr) : List Byte := (encode i).flatMap unitBytes

/-- The encoded length of an instruction in bytes (R83). -/
def Instr.length (i : Instr) : Nat := i.opcode.length

/-! ## The opcode table's words -/

/-- The sixteen bytes of the longest instruction whose bits are `w`, unit k being bits 32k+31..32k as
spec/opcode_table.json numbers them, with every bit above `nbits` zero; each unit is laid out big-endian. -/
def tableBytes (nbits w : Nat) : List Byte :=
  let v := w % 2 ^ nbits
  [0, 1, 2, 3].flatMap (fun k => unitBytes (BitVec.ofNat 32 (v / 2 ^ (32 * k))))

/-- The instruction that `decode` reads from an instruction whose bits are `w`, none where it rejects. -/
def decodeTableWord (nbits w : Nat) : Option Instr :=
  match decode (tableBytes nbits w) with
  | .ok (i, _) => some i
  | .error _ => none

end Sys2Proof
end

