-- ==== Sys2Proof/Machine/Fetch.lean ====
section
/-! DEFINITION. Fetching an instruction, and laying bytes into memory from outside (30_encoding.md R84,
70_reset_and_hazards.md R272). -/

namespace Sys2Proof.Machine

/-- The unit at `eip + n`, addresses modulo 2^32 (R84). -/
def State.unitAt (s : State) (n : Nat) : Word := s.readMem .dword (s.eip + BitVec.ofNat 32 n)

/-- Fetch and decode the instruction at `eip`, or the opcode unit that selects none (R84, R85). The units after a shorter
instruction are read and ignored: a read changes no state (R51; assumption log 10). -/
def fetchInstr (s : State) : Except Word Instr := decodeUnits (s.unitAt 0) (s.unitAt 4) (s.unitAt 8) (s.unitAt 12)

/-- The sixteen bytes from `eip` upward, as many as the longest instruction has (R82). -/
def State.fetchBytes (s : State) : List Byte := s.readBytes s.eip 16

/-- The one chunk with base `a` that holds a whole byte list laid at `a` into an empty memory, also where the list passes the
top of the address space (R272; assumption log 8). A chunk has at least one byte, so an empty list makes none (R53). -/
def loadedChunk (a : Word) (n : Nat) : List Chunk :=
  if n = 0 then [] else [{ base := a.toNat, len := n }]

/-- Lay bytes at `a` upward, addresses modulo 2^32: into an empty memory as one chunk, into one that has chunks by
`writeByte` of each byte in ascending order (R272). -/
def State.loadAt (s : State) (a : Word) (bs : List Byte) : State :=
  let t := if s.chunks.isEmpty then { s with chunks := loadedChunk a bs.length } else s
  t.writeBytes a bs

end Sys2Proof.Machine
end

