-- ==== Sys2Proof/Machine/HostOps.lean ====
section
/-! DEFINITION. What the host does to the machine and reads from it (00_scope.md R15): power-on is `State.reset`; here are
register reset, program load and the run result (70_reset_and_hazards.md R271 to R274, 60_exceptions.md R255). -/

namespace Sys2Proof.Machine

/-- Register reset: registers, `eip`, flags, halt latch and run status take their power-on values, the memory with every
chunk and the console trace are kept (R271). -/
def State.registerReset (s : State) : State :=
  { s with
    regs := State.reset.regs
    eip := State.reset.eip
    cmpf := State.reset.cmpf
    cf := State.reset.cf
    halted := State.reset.halted
    fatal := State.reset.fatal }

/-- Program load at ORIGIN; a buffer longer than 2^32 bytes is refused by the host (R272). -/
def State.load (s : State) (p : List Byte) : Option State :=
  if p.length ≤ 2 ^ 32 then some (s.loadAt Config.origin p) else none

/-- The result of a run that is over (R255). -/
inductive RunResult where
  | halted
  | fault (c : FatalCondition) (message : String)
  deriving DecidableEq, Repr

/-- The run result, none while the machine is running (R255). -/
def State.runResult (s : State) : Option RunResult :=
  match s.runStatus with
  | .running => none
  | .halted => some .halted
  | .faulted c => some (.fault c (Config.fatalMessage c))

end Sys2Proof.Machine
end

