-- ==== Sys2Proof/Machine/Step.lean ====
section
/-! DEFINITION. One step of the machine (60_exceptions.md R254), and the placing of an instruction where it is fetched. -/

namespace Sys2Proof.Machine

/-- One step: a running machine fetches, decodes and executes one instruction; a halted or faulted machine has no next
state and delivers its run result (R254, R255; assumption log 2). -/
def step (s : State) : Host.Outcome State Fault Refusal :=
  match s.runStatus with
  | .running =>
    match fetchInstr s with
    | .ok i => exec i s
    | .error u => unrecognisedOpcode Config.unknownOpcodePolicy u s
  | .halted => .fault .halted
  | .faulted c => .fault (.fatal c)

/-- `s` with the instruction whose bits are `w` stored at `eip`, as a load would lay it, and the machine running, so that
the very next step fetches and runs it (assumption log 8). -/
def State.withFetchWord (s : State) (nbits w : Nat) : State :=
  { s.loadAt s.eip (tableBytes nbits w) with halted := false, fatal := none }

end Sys2Proof.Machine
end

