-- ==== Sys2Proof/Machine/Run.lean ====
section
/-! DEFINITION. The run that the host starts after a load (70_reset_and_hazards.md R274), as far as a number of steps. -/

namespace Sys2Proof.Machine

/-- The state after at most `n` steps: the engine steps until the status is halted or faulted (R255, R274). A run that is
not over after `n` steps goes on. -/
def runFor : Nat → State → State
  | 0, s => s
  | n + 1, s =>
    match step s with
    | .next t => runFor n t
    | .fault _ => s
    | .refused _ => s

end Sys2Proof.Machine
end

