-- ==== Sys2Proof/Machine/Assembler.lean ====
section
/-! DEFINITION. The assembler encoder (47_assembler.md): statement nodes, the length of a statement, pass 1 (the label
table), pass 2 (emission), and the displaced-address expansion. It touches no machine state (00_scope.md R16). -/

namespace Sys2Proof.Machine

/-! ## Statement nodes (R200) -/

/-- A sign of a displacement. -/
inductive Sign where
  | plus | minus
  deriving DecidableEq, Repr

/-- Operand nodes (R200). -/
inductive Operand where
  | reg (r : Reg)
  | num (n : Nat)
  | addr (sz : Size) (r : Reg)
  | addrDisp (sz : Size) (r : Reg) (sign : Sign) (n : Nat)
  | label (name : String)
  | rel (sign : Sign) (n : Nat)
  deriving DecidableEq, Repr

/-- The seven jumps a jump node chooses among (R200). -/
inductive JumpKind where
  | jmp | jg | jge | jl | jle | je | jne
  deriving DecidableEq, Repr

/-- The operation of a summation node. -/
inductive SumOp where
  | add | sub
  deriving DecidableEq, Repr

/-- The operation of a multiply node. -/
inductive MulOp where
  | mul | div
  deriving DecidableEq, Repr

/-- The operation of a bitwise node. -/
inductive BitOp where
  | and | or | xor
  deriving DecidableEq, Repr

/-- The operation of a shift node. -/
inductive ShiftOp where
  | shr | shl
  deriving DecidableEq, Repr

/-- Statement nodes: the sixteen tags, and a node whose tag is none of them (R200, R223). -/
inductive Stmt where
  | labelDef (name : String)
  | jump (k : JumpKind) (target : Operand)
  | move (dst src : Operand)
  | sum (op : SumOp) (dst src : Operand)
  | mulDiv (op : MulOp) (src : Operand)
  | bitwise (op : BitOp) (dst src : Operand)
  | negate (dst : Operand)
  | push (src : Operand)
  | pop (dst : Operand)
  | call (target : Operand)
  | ret
  | compare (a b : Operand)
  | shift (op : ShiftOp) (dst src : Operand)
  | interrupt (n : Operand)
  | nop
  | hlt
  | other (tag : String)
  deriving DecidableEq, Repr

/-! ## Pass 1: lengths and the label table -/

/-- The length in bytes of a statement's line: a function of its tag and the kinds of its operands (R205); 0 for the
combinations that no line exists for, which pass 2 refuses (assumption log 14). -/
def Stmt.length : Stmt → Nat
  | .labelDef _ => 0
  | .jump _ _ | .call _ => 8
  | .move (.reg _) (.num _) => 12
  | .move (.reg _) (.reg _) => 12
  | .move (.reg _) (.addr _ _) => 16
  | .move (.addr _ _) (.num _) => 16
  | .move (.addr _ _) (.reg _) => 16
  | .move (.reg _) (.addrDisp _ _ _ _) => 44
  | .move (.addrDisp _ _ _ _) (.num _) => 44
  | .move (.addrDisp _ _ _ _) (.reg _) => 44
  | .move _ _ => 0
  | .sum _ _ _ | .bitwise _ _ _ | .shift _ _ _ => 12
  | .compare _ (.addr _ _) => 16
  | .compare _ (.addrDisp _ _ _ _) => 44
  | .compare _ _ => 12
  | .mulDiv _ _ | .push _ | .pop _ | .negate _ | .interrupt _ => 8
  | .ret | .nop | .hlt => 4
  | .other _ => 0

/-- The label table: names to absolute addresses (R209). -/
abbrev LabelTable := List (String × Nat)

/-- The table's entry for a name; names are compared as exact strings (R209). -/
def LabelTable.find (t : LabelTable) (name : String) : Option Nat :=
  match t with
  | [] => none
  | e :: t => if e.1 = name then some e.2 else LabelTable.find t name

/-- Pass 1 from running offset `off` with the labels already recorded (R203); a second definition of a name fails with
duplicate-label (R209). -/
def passOne (off : Nat) (table : LabelTable) : List Stmt → Except AssemblyError LabelTable
  | [] => .ok table
  | .labelDef name :: ss =>
    match table.find name with
    | some _ => .error .duplicateLabel
    | none => passOne off (table ++ [(name, Config.origin.toNat + off)]) ss
  | st :: ss => passOne (off + st.length) table ss

/-! ## Pass 2: one line per statement -/

/-- A number token's value: value-too-large above 0xFFFFFFFF (R221). -/
def number (n : Nat) : Except AssemblyError Word :=
  if n > Config.maxWord then .error .valueTooLarge else .ok (BitVec.ofNat 32 n)

/-- The absolute address of a jump or call target, for a statement whose line starts at offset `off` (R207, R208). A label's
address is reduced modulo 2^32, as the load lays the program, and an operand that is no target is unsupported-operand, also
where its displacement is too large (assumption log 14). -/
def targetAddress (table : LabelTable) (off : Nat) : Operand → Except AssemblyError Word
  | .num n => number n
  | .label name =>
    match table.find name with
    | some a => .ok (BitVec.ofNat 32 a)
    | none => .error .undefinedLabel
  | .rel .plus n => if n > Config.maxWord then .error .valueTooLarge else number (Config.origin.toNat + off + n)
  | .rel .minus n =>
    if n > Config.maxWord then .error .valueTooLarge
    else if Config.origin.toNat + off < n then .error .valueTooLarge
    else number (Config.origin.toNat + off - n)
  | .reg _ | .addr _ _ | .addrDisp _ _ _ _ => .error .unsupportedOperand

/-- The line of one instruction with a number token (R202). -/
def withNumber (n : Nat) (f : Word → Instr) : Except AssemblyError (List Instr) :=
  match number n with
  | .ok v => .ok [f v]
  | .error e => .error e

/-- The jump instruction of a jump node (R200, R207). -/
def JumpKind.instr : JumpKind → Word → Instr
  | .jmp => .jmp
  | .jg => .jg
  | .jge => .jge
  | .jl => .jl
  | .jle => .jle
  | .je => .je
  | .jne => .jne

/-- The displaced-address expansion around the line `op`: save the base, add or subtract the displacement, access, restore
the base (R213). -/
def expandDisplaced (r : Reg) (sign : Sign) (n : Word) (op : Instr) : List Instr :=
  [ .pshr (.reg r),
    (match sign with | .plus => .add (.reg r) n | .minus => .sub (.reg r) n),
    op,
    .pop (.reg r) ]

/-- The line of a statement with a displaced operand, given the line it would have with the bare register (R213). A displacement
that is too large comes before a number operand that is: both are value-too-large (R221; assumption log 14). -/
def displacedLine (r : Reg) (sign : Sign) (n : Nat) (op : Except AssemblyError (List Instr)) :
    Except AssemblyError (List Instr) :=
  match number n, op with
  | .error e, _ => .error e
  | .ok _, .error e => .error e
  | .ok v, .ok is => .ok (is.flatMap (expandDisplaced r sign v))

/-- The line of a move (R210, R213). A combination of operand kinds that has no line fails with unsupported-operand, also where
one of its numbers is too large: which of the two failures is reported is open (R220; DESIGN CHOICE, assumption log 14). -/
def moveLine : Operand → Operand → Except AssemblyError (List Instr)
  | .reg d, .num n => withNumber n (.mrv (.reg d))
  | .reg d, .reg s => .ok [.mrvr (.reg d) (.reg s)]
  | .reg d, .addr sz a => .ok [.mrva (.reg d) (.size sz) (.reg a)]
  | .addr sz a, .num n => withNumber n (.mav (.size sz) (.reg a))
  | .addr sz a, .reg s => .ok [.mavr (.size sz) (.reg a) (.reg s)]
  | .reg d, .addrDisp sz a sign n => displacedLine a sign n (.ok [.mrva (.reg d) (.size sz) (.reg a)])
  | .addrDisp sz a sign n, .num v => displacedLine a sign n (withNumber v (.mav (.size sz) (.reg a)))
  | .addrDisp sz a sign n, .reg s => displacedLine a sign n (.ok [.mavr (.size sz) (.reg a) (.reg s)])
  | _, _ => .error .unsupportedOperand

/-- The line of a compare (R211, R213). Unsupported-operand comes before a number that is too large (DESIGN CHOICE, assumption
log 14). -/
def compareLine : Operand → Operand → Except AssemblyError (List Instr)
  | .reg a, .num n => withNumber n (.cmp (.reg a))
  | .reg a, .reg s => .ok [.cmpr (.reg a) (.reg s)]
  | .reg a, .addr sz r => .ok [.cmpa (.reg a) (.size sz) (.reg r)]
  | .reg a, .addrDisp sz r sign n => displacedLine r sign n (.ok [.cmpa (.reg a) (.size sz) (.reg r)])
  | _, _ => .error .unsupportedOperand

/-- The line of a two-form operation on a register: the immediate or the register mnemonic by the kind of `src` (R211).
Unsupported-operand comes before a number that is too large (DESIGN CHOICE, assumption log 14). -/
def twoFormLine (imm : RegOperand → Word → Instr) (reg : RegOperand → RegOperand → Instr) :
    Operand → Operand → Except AssemblyError (List Instr)
  | .reg d, .num n => withNumber n (imm (.reg d))
  | .reg d, .reg s => .ok [reg (.reg d) (.reg s)]
  | _, _ => .error .unsupportedOperand

/-- The line of a two-form operation with one operand (R211, R212). Unsupported-operand comes before a number that is too large
(DESIGN CHOICE, assumption log 14). -/
def oneOperandLine (imm : Word → Instr) (reg : RegOperand → Instr) : Operand → Except AssemblyError (List Instr)
  | .num n => withNumber n imm
  | .reg s => .ok [reg (.reg s)]
  | _ => .error .unsupportedOperand

/-- The line of a jump or call to a target (R207). -/
def targetLine (table : LabelTable) (off : Nat) (f : Word → Instr) (target : Operand) :
    Except AssemblyError (List Instr) :=
  match targetAddress table off target with
  | .ok a => .ok [f a]
  | .error e => .error e

/-- The encoded line of a statement whose first byte has offset `off`, as the instructions whose tokens it lists
(R204, R207, R210 to R213). An operand kind that a statement does not take is unsupported-operand, also where it is a number
that is too large (DESIGN CHOICE, assumption log 14). -/
def Stmt.line (table : LabelTable) (off : Nat) : Stmt → Except AssemblyError (List Instr)
  | .labelDef _ => .ok []
  | .jump k target => targetLine table off k.instr target
  | .move dst src => moveLine dst src
  | .sum .add dst src => twoFormLine .add .addr dst src
  | .sum .sub dst src => twoFormLine .sub .subr dst src
  | .mulDiv .mul src => oneOperandLine .mul .mulr src
  | .mulDiv .div src => oneOperandLine .div .divr src
  | .bitwise .and dst src => twoFormLine .and .andr dst src
  | .bitwise .or dst src => twoFormLine .or .orr dst src
  | .bitwise .xor dst src => twoFormLine .xor .xorr dst src
  | .negate (.reg d) => .ok [.neg (.reg d)]
  | .negate _ => .error .unsupportedOperand
  | .push src => oneOperandLine .psh .pshr src
  | .pop (.reg d) => .ok [.pop (.reg d)]
  | .pop _ => .error .unsupportedOperand
  | .call target => targetLine table off .call target
  | .ret => .ok [.ret]
  | .compare a b => compareLine a b
  | .shift .shr dst src => twoFormLine .shr .shrr dst src
  | .shift .shl dst src => twoFormLine .shl .shlr dst src
  | .interrupt (.num n) => withNumber n .int
  | .interrupt _ => .error .unsupportedOperand
  | .nop => .ok [.nop]
  | .hlt => .ok [.hlt]
  | .other _ => .error .unknownStatement

/-- Pass 2 from running offset `off`: the instructions of all lines in statement order, or the first failure (R204, R220). -/
def passTwo (table : LabelTable) (off : Nat) : List Stmt → Except AssemblyError (List Instr)
  | [] => .ok []
  | st :: ss =>
    match st.line table off with
    | .error e => .error e
    | .ok is =>
      match passTwo table (off + st.length) ss with
      | .error e => .error e
      | .ok rest => .ok (is ++ rest)

/-- The instructions of a program, or the first failure met, pass 1 before pass 2 (R203, R204, R220). -/
def assembleInstrs (ss : List Stmt) : Except AssemblyError (List Instr) :=
  match passOne 0 [] ss with
  | .error e => .error e
  | .ok table => passTwo table 0 ss

/-- The byte image of a program, loaded at ORIGIN (R202, R204), or the failure and no bytes (R220). -/
def assemble (ss : List Stmt) : Except AssemblyError (List Byte) :=
  match assembleInstrs ss with
  | .error e => .error e
  | .ok is => .ok (is.flatMap encodeBytes)

/-- The typed failure with its message that the caller of a failed assembly gets (R220, U2). -/
def assemblyFailure (ss : List Stmt) : Option (AssemblyError × String) :=
  match assemble ss with
  | .ok _ => none
  | .error e => some (e, Config.assemblyMessage e)

end Sys2Proof.Machine
end

