-- ==== Sys2Proof/Safety.lean ====
section
/-! DEFINITION. The terms in which claims speak of the machine: the invariant of a state, what an instruction may write
according to the spec, and what it means that a part of the state is unchanged. -/

namespace Sys2Proof.Machine

/-! ## The invariant -/

/-- The chunk extents have the form R53 (a), (b) and R52's order ask for: a base inside the address space and at least one
byte each, ascending and without a common address. A chunk that passes the top of the address space (R272) ends below every
base, its own among them, so it is the last and covers no address twice. -/
abbrev chunksWellFormed (cs : List Chunk) : Prop :=
  cs.Pairwise (fun c d => c.base + c.len ≤ d.base) ∧
    ∀ c ∈ cs, c.base < 2 ^ 32 ∧ 1 ≤ c.len ∧ ∀ d ∈ cs, c.base + c.len ≤ d.base + 2 ^ 32

/-- Every byte that is not zero lies in a chunk (R35: an address not covered by a chunk reads as zero). -/
abbrev chunksCover (s : State) : Prop := ∀ c ∈ s.mem, s.chunks.any (·.covers c.1)

/-- The invariant of the machine: the memory has its canonical form, the chunks have theirs and hold every non-zero byte,
and the state is in one of the three conditions of R31 (not both halted and faulted). -/
structure State.Inv (s : State) : Prop where
  memory : Memory.wf s.mem
  chunks : chunksWellFormed s.chunks
  cover : chunksCover s
  status : ¬(s.halted = true ∧ s.fatal.isSome = true)

/-! ## What may change -/

/-- Every register but those listed reads as before. -/
def SameRegsExcept (ds : List Reg) (s t : State) : Prop := ∀ r, r ∉ ds → t.reg r = s.reg r

/-- Every byte of memory reads as before, and the chunks are as before. -/
def SameMemory (s t : State) : Prop := (∀ a, t.readByte a = s.readByte a) ∧ t.chunks = s.chunks

/-- Every byte of memory but the `n` bytes from `a` upward, addresses modulo 2^32, reads as before. -/
def SameMemoryExcept (a : Word) (n : Nat) (s t : State) : Prop :=
  ∀ b : Word, (∀ k, k < n → b ≠ a + BitVec.ofNat 32 k) → t.readByte b = s.readByte b

/-- Both flags are as before. -/
def SameFlags (s t : State) : Prop := t.cmpf = s.cmpf ∧ t.cf = s.cf

/-- The halt latch, the fatal condition, the console trace and the count of free values are as before. -/
def SameStatus (s t : State) : Prop :=
  t.halted = s.halted ∧ t.fatal = s.fatal ∧ t.console = s.console ∧ t.freeCount = s.freeCount

/-- What a raised condition leaves unchanged (60_exceptions.md R242): registers, flags, memory, console, halt latch. -/
def RaisedAndNothingElse (c : FatalCondition) (s t : State) : Prop :=
  t.fatal = some c ∧ SameRegsExcept [] s t ∧ SameFlags s t ∧ SameMemory s t ∧ t.console = s.console ∧ t.halted = s.halted

/-- One register gets `v`, `eip` moves `n` bytes on, and nothing else changes. -/
def WritesOneRegister (a : Reg) (v : Word) (n : Nat) (s t : State) : Prop :=
  t.reg a = v ∧ t.eip = s.eip + BitVec.ofNat 32 n ∧
    SameRegsExcept [a] s t ∧ SameFlags s t ∧ SameMemory s t ∧ SameStatus s t

/-- One register gets the exact result `r` modulo 2^32 and `cf` tells whether `r` exceeds 0xFFFFFFFF (R140); `eip` moves
`n` bytes on, and nothing else changes. -/
def WritesRegisterAndCarry (a : Reg) (r : Nat) (n : Nat) (s t : State) : Prop :=
  (t.reg a).toNat = r % 2 ^ 32 ∧ (t.cf = true ↔ r > 0xFFFFFFFF) ∧ t.cmpf = s.cmpf ∧
    t.eip = s.eip + BitVec.ofNat 32 n ∧ SameRegsExcept [a] s t ∧ SameMemory s t ∧ SameStatus s t

/-- The compare flag tells how `x` compares with `y` as unsigned integers (R173), `eip` moves `n` bytes on, and nothing
else changes. -/
def WritesCompareFlag (x y : Nat) (n : Nat) (s t : State) : Prop :=
  (t.cmpf = .greater ↔ x > y) ∧ (t.cmpf = .less ↔ x < y) ∧ (t.cmpf = .equal ↔ x = y) ∧ t.cf = s.cf ∧
    t.eip = s.eip + BitVec.ofNat 32 n ∧ SameRegsExcept [] s t ∧ SameMemory s t ∧ SameStatus s t

/-- The `n` bytes from `a` upward, addresses modulo 2^32, hold the low `n` bytes of `v`, most significant first (20_memory.md
R57), and every other byte is as before. -/
def StoresBigEndian (a : Word) (n : Nat) (v : Word) (s t : State) : Prop :=
  (∀ k, k < n → t.readByte (a + BitVec.ofNat 32 k) = BitVec.ofNat 8 (v.toNat / 2 ^ (8 * (n - 1 - k)))) ∧
    SameMemoryExcept a n s t

/-- The unsigned big-endian value of the bytes at `a`, one, two or four of them, addresses modulo 2^32 (R56). -/
def loadedValue (s : State) (z : Size) (a : Word) : Nat :=
  match z with
  | .byte => (s.readByte a).toNat
  | .word => (s.readByte a).toNat * 2 ^ 8 + (s.readByte (a + 1#32)).toNat
  | .dword =>
    (s.readByte a).toNat * 2 ^ 24 + (s.readByte (a + 1#32)).toNat * 2 ^ 16 +
      (s.readByte (a + 2#32)).toNat * 2 ^ 8 + (s.readByte (a + 3#32)).toNat

/-- The fatal condition of the first bad operand unit in ascending offset order, if one is bad (30_encoding.md R92). -/
def firstBadOperand : List OperandUnit → Option FatalCondition
  | [] => none
  | .register (.unknown u) :: _ => some (.unknownRegister u)
  | .size (.bad u) :: _ => some (.badSize u)
  | .register (.reg _) :: us => firstBadOperand us
  | .size (.size _) :: us => firstBadOperand us
  | .number _ :: us => firstBadOperand us

/-- The register that a register operand names, if it names one. -/
def namedReg : RegOperand → List Reg
  | .reg r => [r]
  | .unknown _ => []

/-- The general registers an instruction may write: its destination, and the implicit ones (10_state.md R21). -/
def mayWrite : Instr → List Reg
  | .mrv a _ | .mrvr a _ | .mrva a _ _ => namedReg a
  | .add a _ | .addr a _ | .sub a _ | .subr a _ => namedReg a
  | .mul _ | .mulr _ => [.eax]
  | .div _ | .divr _ => [.eax, .edx]
  | .and a _ | .andr a _ | .or a _ | .orr a _ | .xor a _ | .xorr a _ | .neg a => namedReg a
  | .psh _ | .pshr _ | .call _ | .ret => [.esp]
  | .pop a => .esp :: namedReg a
  | .shr a _ | .shrr a _ | .shl a _ | .shlr a _ => namedReg a
  | .jmp _ | .jg _ | .jge _ | .jl _ | .jle _ | .je _ | .jne _ => []
  | .mav _ _ _ | .mavr _ _ _ | .cmp _ _ | .cmpr _ _ | .cmpa _ _ _ | .int _ | .hlt | .nop => []

/-- The address and the number of the bytes that a store through `rm` of size `sz` writes; none for an operand that
raises. -/
def storeRange (sz : SizeOperand) (rm : RegOperand) (s : State) : Option (Word × Nat) :=
  match sz, rm with
  | .size z, .reg m => some (s.effectiveAddress m, z.nbytes)
  | _, _ => none

/-- The address and the number of the bytes an instruction stores to, as its meaning computes them; none for the
instructions that store nothing (20_memory.md R61). -/
def storesTo (i : Instr) (s : State) : Option (Word × Nat) :=
  match i with
  | .mav sz rm _ => storeRange sz rm s
  | .mavr sz rm _ => storeRange sz rm s
  | .psh _ => some (s.reg .esp - 4#32, 4)
  | .pshr _ => some (s.reg .esp - 4#32, 4)
  | .call _ => some (s.reg .esp - 4#32, 4)
  | _ => none

/-- The instructions that write the compare flag (R27). -/
def writesCmpf : Instr → Bool
  | .cmp _ _ | .cmpr _ _ | .cmpa _ _ _ => true
  | _ => false

/-- The instructions that write the carry flag (R28). -/
def writesCf : Instr → Bool
  | .add _ _ | .addr _ _ | .mul _ | .mulr _ => true
  | _ => false

/-- The instructions that do not always go on at the next instruction in memory (R26). -/
def transfersControl : Instr → Bool
  | .jmp _ | .jg _ | .jge _ | .jl _ | .jle _ | .je _ | .jne _ | .call _ | .ret => true
  | _ => false

/-! ## Assembler statements -/

/-- The number written in an operand node: of a number token, of a displacement, of a relative target (47_assembler.md
R221). -/
def Operand.magnitude : Operand → Option Nat
  | .num n => some n
  | .addrDisp _ _ _ n => some n
  | .rel _ n => some n
  | .reg _ | .addr _ _ | .label _ => none

/-- The operand nodes of a statement node (R200). -/
def Stmt.operands : Stmt → List Operand
  | .jump _ a | .mulDiv _ a | .negate a | .push a | .pop a | .call a | .interrupt a => [a]
  | .move a b | .sum _ a b | .bitwise _ a b | .compare a b | .shift _ a b => [a, b]
  | .labelDef _ | .ret | .nop | .hlt | .other _ => []

/-- A target that a jump or call may have (R207). -/
def Operand.isTarget : Operand → Bool
  | .num _ | .label _ | .rel _ _ => true
  | .reg _ | .addr _ _ | .addrDisp _ _ _ _ => false

/-- A number or a register, the sources of every two-form operation (R211, R212). -/
def Operand.isNumOrReg : Operand → Bool
  | .num _ | .reg _ => true
  | .addr _ _ | .addrDisp _ _ _ _ | .label _ | .rel _ _ => false

/-- A register. -/
def Operand.isReg : Operand → Bool
  | .reg _ => true
  | .num _ | .addr _ _ | .addrDisp _ _ _ _ | .label _ | .rel _ _ => false

/-- A memory operand, with or without a displacement (R214). -/
def Operand.isMem : Operand → Bool
  | .addr _ _ | .addrDisp _ _ _ _ => true
  | .reg _ | .num _ | .label _ | .rel _ _ => false

/-- The combinations of tag and operand kinds that R207 and R210 to R214 list. -/
def Stmt.supported : Stmt → Bool
  | .labelDef _ | .ret | .nop | .hlt => true
  | .jump _ a | .call a => a.isTarget
  | .move a b => a.isReg && (b.isNumOrReg || b.isMem) || a.isMem && b.isNumOrReg
  | .sum _ a b | .bitwise _ a b | .shift _ a b => a.isReg && b.isNumOrReg
  | .compare a b => a.isReg && (b.isNumOrReg || b.isMem)
  | .mulDiv _ a | .push a => a.isNumOrReg
  | .negate a | .pop a => a.isReg
  | .interrupt (.num _) => true
  | .interrupt _ | .other _ => false

/-- Execute a list of instructions one after another, as the engine does when they follow one another in memory and none
transfers control. -/
def execAll : List Instr → State → Host.Outcome State Fault Refusal
  | [], s => .next s
  | i :: is, s =>
    match exec i s with
    | .next t => execAll is t
    | .fault r => .fault r
    | .refused r => .refused r

end Sys2Proof.Machine
end

