-- ==== Sys2Proof/Certificates/Slice0/Obligations.lean ====
section
/-! DEFINITION. The statements for the provers. Each docstring names the rule of spec/ it comes from and, where a clause
rests on a convention of the model, the assumption log's entry. -/

open Sys2Proof Sys2Proof.Machine

/-! ## Decoding and encoding -/

/-- Decoding the bytes of a well-formed instruction, whatever bytes follow, gives that instruction back (30_encoding.md R80
to R90). That an operand unit which raises is kept in the instruction is the model's choice (assumption log 9). -/
def Obligations.DecodeOfEncodeIsIdentity : Prop :=
  ∀ (i : Instr) (rest : List Byte), i.wellFormed = true → decode (encodeBytes i ++ rest) = .ok (i, rest)

/-- What decodes is the encoding of the instruction it decodes to, and that instruction is well formed: no two byte strings
mean the same instruction (R80 to R90). -/
def Obligations.EncodeOfDecodeIsIdentity : Prop :=
  ∀ (bs : List Byte) (i : Instr) (rest : List Byte),
    decode bs = .ok (i, rest) → encodeBytes i ++ rest = bs ∧ i.wellFormed = true

/-- R85: an opcode unit, right-trimmed of 0x20 bytes, selects the instruction whose mnemonic it equals; equivalently its
value equals that instruction's `match` value; 0x00000000 and 0x20202020 select nothing. -/
def Obligations.OpcodeTextAndMatchValueAgree : Prop :=
  (∀ u : Word, opcodeOfText u = opcodeOf u) ∧
    (∀ (u : Word) (o : Opcode), opcodeOf u = some o ↔ u = o.matchValue) ∧
      opcodeOf 0x00000000#32 = none ∧ opcodeOf 0x20202020#32 = none

/-- R86: the eight register units, and none for every other value. -/
def Obligations.RegisterUnitsNameEightRegisters : Prop :=
  regOf 0x65617820#32 = some .eax ∧ regOf 0x65627820#32 = some .ebx ∧ regOf 0x65637820#32 = some .ecx ∧
    regOf 0x65647820#32 = some .edx ∧ regOf 0x65736920#32 = some .esi ∧ regOf 0x65646920#32 = some .edi ∧
      regOf 0x65627020#32 = some .ebp ∧ regOf 0x65737020#32 = some .esp ∧
        ∀ u : Word,
          u ∉ [0x65617820#32, 0x65627820#32, 0x65637820#32, 0x65647820#32, 0x65736920#32, 0x65646920#32, 0x65627020#32,
            0x65737020#32] → regOf u = none

/-- A few of the encoding examples of R93 decode to the instructions they stand for. -/
def Obligations.SampleEncodingsDecode : Prop :=
  decode [0x68#8, 0x6C#8, 0x74#8, 0x20#8] = .ok (.hlt, []) ∧
    decode [0x6A#8, 0x6D#8, 0x70#8, 0x20#8, 0x80#8, 0x00#8, 0x00#8, 0x0C#8] = .ok (.jmp 0x8000000C#32, []) ∧
      decode [0x70#8, 0x73#8, 0x68#8, 0x72#8, 0x65#8, 0x62#8, 0x78#8, 0x20#8] = .ok (.pshr (.reg .ebx), []) ∧
        decode [0x61#8, 0x64#8, 0x64#8, 0x72#8, 0x65#8, 0x61#8, 0x78#8, 0x20#8, 0x65#8, 0x63#8, 0x78#8, 0x20#8] =
          .ok (.addr (.reg .eax) (.reg .ecx), []) ∧
          decode [0x6D#8, 0x61#8, 0x76#8, 0x72#8, 0x00#8, 0x00#8, 0x00#8, 0x01#8, 0x65#8, 0x62#8, 0x78#8, 0x20#8, 0x65#8,
            0x63#8, 0x78#8, 0x20#8] = .ok (.mavr (.size .word) (.reg .ebx) (.reg .ecx), [])

/-! ## The step -/

/-- When the bytes at `eip` decode to an instruction, the step of a running machine is the meaning of that instruction:
`exec` itself moves `eip` past the units, and the step adds nothing (R254). -/
def Obligations.StepRunsDecodedInstruction : Prop :=
  ∀ (s : State) (i : Instr) (rest : List Byte),
    s.runStatus = .running → decode s.fetchBytes = .ok (i, rest) → step s = exec i s

/-- A halted or faulted machine has no next state (R254). That the step then answers the run result as a fault is the
model's choice (assumption log 2). -/
def Obligations.HaltedOrFaultedMachineHasNoStep : Prop :=
  ∀ s : State,
    (s.runStatus = .halted → step s = .fault .halted) ∧
      ∀ c : FatalCondition, s.runStatus = .faulted c → step s = .fault (.fatal c)

/-- An opcode unit that selects no instruction, under either value of UNKNOWN_OPCODE_POLICY: `fault` raises
UnknownOpcode with the unit's value, `nop` moves `eip` past the one unit and changes nothing else (R192). -/
def Obligations.UnrecognisedOpcodeFollowsPolicy : Prop :=
  ∀ s : State, s.runStatus = .running → opcodeOf (BitVec.ofNat 32 (loadedValue s .dword s.eip)) = none →
    match Config.unknownOpcodePolicy with
    | .fault =>
      ∃ t, step s = .next t ∧
        RaisedAndNothingElse (.unknownOpcode (BitVec.ofNat 32 (loadedValue s .dword s.eip))) s t
    | .nop => step s = .next { s with eip := s.eip + 4#32 }

/-- A running machine always has a next step, so a run that does not end is an infinite run, never a stuck one (R254,
R290): in particular no step meets an `int 2` whose string has no end. -/
def Obligations.RunningMachineAlwaysHasNextStep : Prop :=
  ∀ s : State, s.runStatus = .running → ∃ t, step s = .next t

/-- Every step keeps the invariant: canonical memory, well-formed chunks that hold every non-zero byte, and at most one of
halted and faulted (R31, R35, R53). -/
def Obligations.StepKeepsInvariant : Prop :=
  ∀ s t : State, s.Inv → step s = .next t → t.Inv

/-- The invariant holds after power-on. -/
def Obligations.ResetSatisfiesInvariant : Prop := State.reset.Inv

/-- The host's operations keep the invariant: register reset (R271) and program load (R272). So does placing an instruction at
`eip`, which is no operation of the spec but the model's own choice, made for the host of this package (assumption log 8). -/
def Obligations.HostOperationsKeepInvariant : Prop :=
  ∀ s : State, s.Inv →
    s.registerReset.Inv ∧ (∀ (p : List Byte) (t : State), s.load p = some t → t.Inv) ∧
      ∀ nbits w : Nat, (s.withFetchWord nbits w).Inv

/-- The run of the host (R274) keeps the invariant, and a run that is over stays over: once the status is halted or faulted,
more steps change nothing (R31, R255). -/
def Obligations.RunsKeepInvariantAndStayOver : Prop :=
  ∀ (s : State) (n : Nat),
    (s.Inv → (runFor n s).Inv) ∧
      ((runFor n s).runStatus ≠ .running → ∀ m : Nat, runFor (n + m) s = runFor n s)

/-- Placing a table word at `eip` makes the very next step run the instruction it decodes to. Placing is no operation of the
spec but the model's own choice (assumption log 8): it lays the word at `eip`, where a load lays bytes at ORIGIN only, and it
clears the halt latch and the fatal condition, which only a reset does in the spec. -/
def Obligations.PlacedWordIsTheNextInstruction : Prop :=
  ∀ (s : State) (nbits w : Nat) (i : Instr),
    decodeTableWord nbits w = some i → step (s.withFetchWord nbits w) = exec i (s.withFetchWord nbits w)

/-! ## Rules over all instructions -/

/-- No meaning refuses, and the only one that can fault is `int 2` on a memory in which no byte is zero (R188; assumption
log 11). -/
def Obligations.EveryInstructionAnswersNextState : Prop :=
  ∀ (i : Instr) (s : State),
    (∃ t, exec i s = .next t) ∨
      (i = .int 2#32 ∧ exec i s = .fault .scanNeverEnds ∧ ∀ a : Word, s.readByte a ≠ 0#8)

/-- Every general register but those the spec lets the instruction write is unchanged (10_state.md R21). -/
def Obligations.RegistersWrittenOnlyWhereNamed : Prop :=
  ∀ (i : Instr) (s t : State), exec i s = .next t → SameRegsExcept (mayWrite i) s t

/-- The compare flag is written by `cmp`, `cmpr` and `cmpa` only, the carry flag by `add`, `addr`, `mul` and `mulr` only
(R27, R28, R29). -/
def Obligations.FlagsWrittenOnlyByTheirInstructions : Prop :=
  ∀ (i : Instr) (s t : State), exec i s = .next t →
    (writesCmpf i = false → t.cmpf = s.cmpf) ∧ (writesCf i = false → t.cf = s.cf)

/-- An instruction that stores changes no byte outside the bytes at the address its meaning computes, and every other
instruction changes no byte and no chunk (20_memory.md R61). -/
def Obligations.MemoryWrittenOnlyByStores : Prop :=
  ∀ (i : Instr) (s t : State), exec i s = .next t →
    match storesTo i s with
    | some (a, n) => SameMemoryExcept a n s t
    | none => SameMemory s t

/-- Only `hlt` sets the halt latch and nothing clears it; only `int` with selector 0, 1 or 2 writes the console, and it
appends one event (R30, R33). -/
def Obligations.LatchAndConsoleWrittenOnlyByTheirInstructions : Prop :=
  ∀ (i : Instr) (s t : State), exec i s = .next t →
    (t.halted ≠ s.halted → i = .hlt ∧ t.halted = true) ∧
      (t.console = s.console ∨
        ∃ (n : Word) (e : ConsoleEvent), i = .int n ∧ n.toNat < 3 ∧ t.console = s.console ++ [e])

/-- An instruction that raises nothing and transfers no control leaves `eip` at the address after its encoding, modulo 2^32
(R25, R26). -/
def Obligations.EipMovesPastTheEncoding : Prop :=
  ∀ (i : Instr) (s t : State), s.fatal = none → exec i s = .next t → t.fatal = none → transfersControl i = false →
    t.eip = s.eip + BitVec.ofNat 32 (encodeBytes i).length

/-- R242: a step that raises a fatal condition has written no general register, flag, memory byte or console event. The
raising step answers the state whose run status is faulted (R240; assumption log 1). -/
def Obligations.FatalConditionsHaveNoPartialEffect : Prop :=
  ∀ (s t : State) (c : FatalCondition), step s = .next t → t.fatal = some c → RaisedAndNothingElse c s t

/-- Of the bad operand units the one at the lowest offset is reported, and the operation does not begin (R92, R244). -/
def Obligations.FirstBadOperandIsReported : Prop :=
  ∀ (i : Instr) (s : State) (c : FatalCondition), firstBadOperand i.operands = some c →
    ∃ t, exec i s = .next t ∧ RaisedAndNothingElse c s t

/-- With good operand units an instruction raises only the condition that R241 gives it, and only in the case R241 gives. -/
def Obligations.GoodOperandsRaiseOnlyOwnCondition : Prop :=
  ∀ (i : Instr) (s t : State) (c : FatalCondition),
    firstBadOperand i.operands = none → s.fatal = none → exec i s = .next t → t.fatal = some c →
      (c = .stackOverflow ∧ (s.reg .esp).toNat < 4 ∧
          ((∃ n, i = .psh n) ∨ (∃ r, i = .pshr (.reg r)) ∨ ∃ n, i = .call n)) ∨
        (c = .stackUnderflow ∧ (s.reg .esp).toNat > 0xFFFFFFFB ∧ ((∃ r, i = .pop (.reg r)) ∨ i = .ret)) ∨
          (c = .divideByZero ∧ (i = .div 0#32 ∨ ∃ r, i = .divr (.reg r) ∧ s.reg r = 0#32)) ∨
            (∃ n : Word, c = .unknownInterrupt n ∧ i = .int n ∧ n.toNat ≥ 3) ∨
              (c = .badSize (s.reg .edx) ∧ i = .int 1#32 ∧ (s.reg .edx).toNat > 2)

/-! ## Control -/

/-- R117, R119: every jump fetches its target; `jmp` is always taken, the others by the compare flag, and an untaken jump
continues 8 bytes on. Nothing but `eip` changes. After reset `jge`, `jle` and `je` are taken and `jg`, `jl` and `jne` are
not: the flag's reset value is the spec's decision D7 (assumption log 4). -/
def Obligations.JumpsFollowTheCompareFlag : Prop :=
  (∀ (imm : Word) (s : State),
    exec (.jmp imm) s = .next { s with eip := imm } ∧
      exec (.jg imm) s = .next { s with eip := if s.cmpf = .greater then imm else s.eip + 8#32 } ∧
        exec (.jge imm) s = .next { s with eip := if s.cmpf = .less then s.eip + 8#32 else imm } ∧
          exec (.jl imm) s = .next { s with eip := if s.cmpf = .less then imm else s.eip + 8#32 } ∧
            exec (.jle imm) s = .next { s with eip := if s.cmpf = .greater then s.eip + 8#32 else imm } ∧
              exec (.je imm) s = .next { s with eip := if s.cmpf = .equal then imm else s.eip + 8#32 } ∧
                exec (.jne imm) s = .next { s with eip := if s.cmpf = .equal then s.eip + 8#32 else imm }) ∧
    ∀ imm : Word,
      exec (.jge imm) State.reset = .next { State.reset with eip := imm } ∧
        exec (.jle imm) State.reset = .next { State.reset with eip := imm } ∧
          exec (.je imm) State.reset = .next { State.reset with eip := imm } ∧
            exec (.jg imm) State.reset = .next { State.reset with eip := 0x80000008#32 } ∧
              exec (.jl imm) State.reset = .next { State.reset with eip := 0x80000008#32 } ∧
                exec (.jne imm) State.reset = .next { State.reset with eip := 0x80000008#32 }

/-! ## Moves -/

/-- `mrv` and `mrvr` write their destination with the immediate or the source register's value and nothing else (R121,
R122). -/
def Obligations.RegisterMovesWriteDestination : Prop :=
  ∀ (a b : Reg) (imm : Word) (s : State),
    (∃ t, exec (.mrv (.reg a) imm) s = .next t ∧ WritesOneRegister a imm 12 s t) ∧
      ∃ t, exec (.mrvr (.reg a) (.reg b)) s = .next t ∧ WritesOneRegister a (s.reg b) 12 s t

/-- `mrva` writes the whole destination with the zero-extended big-endian value of the bytes at the address register's old
value (R123). -/
def Obligations.LoadWritesZeroExtendedValue : Prop :=
  ∀ (a m : Reg) (z : Size) (s : State),
    ∃ t, exec (.mrva (.reg a) (.size z) (.reg m)) s = .next t ∧
      WritesOneRegister a (BitVec.ofNat 32 (loadedValue s z (s.reg m))) 16 s t

/-- `mav` and `mavr` store the low bytes of the immediate or of the source register at the address register's value, most
significant byte first, and change no other byte, no register and no flag (R124, R125). -/
def Obligations.StoresWriteLowBytes : Prop :=
  ∀ (m b : Reg) (z : Size) (imm : Word) (s : State),
    (∃ t, exec (.mav (.size z) (.reg m) imm) s = .next t ∧ StoresBigEndian (s.reg m) z.nbytes imm s t ∧
        t.eip = s.eip + 16#32 ∧ SameRegsExcept [] s t ∧ SameFlags s t ∧ SameStatus s t) ∧
      ∃ t, exec (.mavr (.size z) (.reg m) (.reg b)) s = .next t ∧ StoresBigEndian (s.reg m) z.nbytes (s.reg b) s t ∧
        t.eip = s.eip + 16#32 ∧ SameRegsExcept [] s t ∧ SameFlags s t ∧ SameStatus s t

/-! ## Memory -/

/-- R56: the value of a multi-byte read is the big-endian sum of its bytes, so it lies below 2^(8n). -/
def Obligations.MultiByteReadIsBigEndianSum : Prop :=
  ∀ (s : State) (z : Size) (a : Word),
    (s.readMem z a).toNat = loadedValue s z a ∧ (s.readMem z a).toNat < 2 ^ (8 * z.nbytes)

/-- After a store of any width at `a`, a load of any width at any address is the big-endian value of the bytes there, each of
which is the store's byte where the store reached and the old byte elsewhere; in particular a load inside a dword store, at
every offset, gives those bytes of the stored value, and a dword load at `a + 1` gives the low three bytes of the value
followed by the byte at `a + 4` (R59). -/
def Obligations.MixedWidthAccessesSeeBytes : Prop :=
  ∀ (s : State) (a v : Word),
    (∀ (stored loaded : Size) (b : Word),
      ((s.writeMem stored a v).readMem loaded b).toNat = loadedValue (s.writeMem stored a v) loaded b) ∧
      (∀ (stored : Size) (x : Word),
        (s.writeMem stored a v).readByte x =
          if (x - a).toNat < stored.nbytes then
            BitVec.ofNat 8 (v.toNat / 2 ^ (8 * (stored.nbytes - 1 - (x - a).toNat)))
          else s.readByte x) ∧
        (∀ (loaded : Size) (k : Nat), k + loaded.nbytes ≤ 4 →
          ((s.writeMem .dword a v).readMem loaded (a + BitVec.ofNat 32 k)).toNat =
            v.toNat / 2 ^ (8 * (4 - k - loaded.nbytes)) % 2 ^ (8 * loaded.nbytes)) ∧
          ((s.writeMem .dword a v).readMem .dword (a + 1#32)).toNat =
            v.toNat % 2 ^ 24 * 2 ^ 8 + (s.readByte (a + 4#32)).toNat

/-- A store is seen by the very next fetch: a dword stored just after the storing instruction is the next opcode unit
(R66). -/
def Obligations.StoreIsSeenByTheNextFetch : Prop :=
  ∀ (s : State) (m : Reg) (v : Word), s.reg m = s.eip + 16#32 →
    ∃ t, exec (.mav (.size .dword) (.reg m) v) s = .next t ∧ t.unitAt 0 = v

/-- The state's memory and chunk extents are the memory controller of R51 and R52: what the host sees of the chunks after a
`writeByte` is R52's `writeByte` on what it saw before, and a read is R51's scan of the chunks. The range of a
chunk that a load made may wrap (assumption log 7 and 8). -/
def Obligations.MemoryRefinesChunkController : Prop :=
  ∀ (s : State) (a : Word) (b : Byte), s.Inv →
    (s.writeByte a b).storedChunks = controllerWrite a.toNat b s.storedChunks ∧
      s.readByte a = controllerRead a.toNat s.storedChunks

/-! ## Arithmetic -/

/-- `add` and `addr` (R130, R131): the exact sum modulo 2^32, and the carry in both directions. -/
def Obligations.AddWritesSumAndCarry : Prop :=
  ∀ (a b : Reg) (imm : Word) (s : State),
    (∃ t, exec (.add (.reg a) imm) s = .next t ∧
        WritesRegisterAndCarry a ((s.reg a).toNat + imm.toNat) 12 s t) ∧
      ∃ t, exec (.addr (.reg a) (.reg b)) s = .next t ∧
        WritesRegisterAndCarry a ((s.reg a).toNat + (s.reg b).toNat) 12 s t

/-- `sub` and `subr` (R132, R133): `max(a - b, 0)`, and no flag. -/
def Obligations.SubtractSaturatesAtZero : Prop :=
  ∀ (a b : Reg) (imm : Word) (s : State),
    (∃ t v, exec (.sub (.reg a) imm) s = .next t ∧ WritesOneRegister a v 12 s t ∧
        (v.toNat : Int) = max ((s.reg a).toNat - imm.toNat : Int) 0) ∧
      ∃ t v, exec (.subr (.reg a) (.reg b)) s = .next t ∧ WritesOneRegister a v 12 s t ∧
        (v.toNat : Int) = max ((s.reg a).toNat - (s.reg b).toNat : Int) 0

/-- `mul` and `mulr` (R134, R135, R141): the exact product modulo 2^32 in `eax`, the carry in both directions, `edx`
untouched. -/
def Obligations.MultiplyWritesProductAndCarry : Prop :=
  ∀ (b : Reg) (imm : Word) (s : State),
    (∃ t, exec (.mul imm) s = .next t ∧
        WritesRegisterAndCarry .eax ((s.reg .eax).toNat * imm.toNat) 8 s t) ∧
      ∃ t, exec (.mulr (.reg b)) s = .next t ∧
        WritesRegisterAndCarry .eax ((s.reg .eax).toNat * (s.reg b).toNat) 8 s t

/-- `div` and `divr` by a non-zero divisor (R136, R137): the old `eax` is quotient times divisor plus remainder, the
quotient in `eax`, the remainder in `edx` and below the divisor, whichever register holds the divisor. -/
def Obligations.DivideWritesQuotientAndRemainder : Prop :=
  (∀ (imm : Word) (s : State), imm ≠ 0#32 →
    ∃ t, exec (.div imm) s = .next t ∧
      (s.reg .eax).toNat = (t.reg .eax).toNat * imm.toNat + (t.reg .edx).toNat ∧ (t.reg .edx).toNat < imm.toNat ∧
        t.eip = s.eip + 8#32 ∧ SameRegsExcept [.eax, .edx] s t ∧ SameFlags s t ∧ SameMemory s t ∧ SameStatus s t) ∧
    ∀ (r : Reg) (s : State), s.reg r ≠ 0#32 →
      ∃ t, exec (.divr (.reg r)) s = .next t ∧
        (s.reg .eax).toNat = (t.reg .eax).toNat * (s.reg r).toNat + (t.reg .edx).toNat ∧
          (t.reg .edx).toNat < (s.reg r).toNat ∧
            t.eip = s.eip + 8#32 ∧ SameRegsExcept [.eax, .edx] s t ∧ SameFlags s t ∧ SameMemory s t ∧ SameStatus s t

/-- A zero divisor raises DivideByZero and nothing is written (R136, R137). -/
def Obligations.DivideByZeroRaises : Prop :=
  (∀ s : State, ∃ t, exec (.div 0#32) s = .next t ∧ RaisedAndNothingElse .divideByZero s t) ∧
    ∀ (r : Reg) (s : State), s.reg r = 0#32 →
      ∃ t, exec (.divr (.reg r)) s = .next t ∧ RaisedAndNothingElse .divideByZero s t

/-! ## Bitwise and unary -/

/-- The six bitwise instructions write bit i of the destination from bit i of each operand, and no flag (R145 to R150). -/
def Obligations.BitwiseInstructionsWorkBitByBit : Prop :=
  ∀ (a b : Reg) (imm : Word) (s : State),
    (∃ t v, exec (.and (.reg a) imm) s = .next t ∧ WritesOneRegister a v 12 s t ∧
        ∀ k, v.getLsbD k = ((s.reg a).getLsbD k && imm.getLsbD k)) ∧
      (∃ t v, exec (.andr (.reg a) (.reg b)) s = .next t ∧ WritesOneRegister a v 12 s t ∧
        ∀ k, v.getLsbD k = ((s.reg a).getLsbD k && (s.reg b).getLsbD k)) ∧
      (∃ t v, exec (.or (.reg a) imm) s = .next t ∧ WritesOneRegister a v 12 s t ∧
        ∀ k, v.getLsbD k = ((s.reg a).getLsbD k || imm.getLsbD k)) ∧
      (∃ t v, exec (.orr (.reg a) (.reg b)) s = .next t ∧ WritesOneRegister a v 12 s t ∧
        ∀ k, v.getLsbD k = ((s.reg a).getLsbD k || (s.reg b).getLsbD k)) ∧
      (∃ t v, exec (.xor (.reg a) imm) s = .next t ∧ WritesOneRegister a v 12 s t ∧
        ∀ k, v.getLsbD k = ((s.reg a).getLsbD k ^^ imm.getLsbD k)) ∧
      ∃ t v, exec (.xorr (.reg a) (.reg b)) s = .next t ∧ WritesOneRegister a v 12 s t ∧
        ∀ k, v.getLsbD k = ((s.reg a).getLsbD k ^^ (s.reg b).getLsbD k)

/-- `neg` writes 0xFFFFFFFF minus the register's value, which is its bitwise complement, and no flag (R151). -/
def Obligations.NegateIsComplementToMaximum : Prop :=
  ∀ (a : Reg) (s : State),
    ∃ t, exec (.neg (.reg a)) s = .next t ∧ WritesOneRegister a (~~~(s.reg a)) 8 s t ∧
      (t.reg a).toNat = 0xFFFFFFFF - (s.reg a).toNat

/-! ## Stack, call and return -/

/-- A push with room lowers `esp` by 4 and stores the value big-endian in the four bytes from the new `esp`; `pshr` pushes
the value the register had before, also for `esp` (R155, R156). -/
def Obligations.PushLowersStackAndStores : Prop :=
  ∀ (r : Reg) (imm : Word) (s : State), 4 ≤ (s.reg .esp).toNat →
    (∃ t, exec (.psh imm) s = .next t ∧ (t.reg .esp).toNat = (s.reg .esp).toNat - 4 ∧
        StoresBigEndian (s.reg .esp - 4#32) 4 imm s t ∧ t.eip = s.eip + 8#32 ∧
          SameRegsExcept [.esp] s t ∧ SameFlags s t ∧ SameStatus s t) ∧
      ∃ t, exec (.pshr (.reg r)) s = .next t ∧ (t.reg .esp).toNat = (s.reg .esp).toNat - 4 ∧
        StoresBigEndian (s.reg .esp - 4#32) 4 (s.reg r) s t ∧ t.eip = s.eip + 8#32 ∧
          SameRegsExcept [.esp] s t ∧ SameFlags s t ∧ SameStatus s t

/-- A pop with something to pop writes the dword at `esp` to its register and raises `esp` by 4, unless the register is
`esp`, which then holds the dword (R157). -/
def Obligations.PopLoadsAndRaisesStack : Prop :=
  ∀ (r : Reg) (s : State), (s.reg .esp).toNat ≤ 0xFFFFFFFB →
    ∃ t, exec (.pop (.reg r)) s = .next t ∧ (t.reg r).toNat = loadedValue s .dword (s.reg .esp) ∧
      (r ≠ .esp → (t.reg .esp).toNat = (s.reg .esp).toNat + 4) ∧ t.eip = s.eip + 8#32 ∧
        SameRegsExcept [r, .esp] s t ∧ SameFlags s t ∧ SameMemory s t ∧ SameStatus s t

/-- `call` with room pushes the address after the call and jumps to its target (R158). -/
def Obligations.CallPushesReturnAddress : Prop :=
  ∀ (imm : Word) (s : State), 4 ≤ (s.reg .esp).toNat →
    ∃ t, exec (.call imm) s = .next t ∧ t.eip = imm ∧ (t.reg .esp).toNat = (s.reg .esp).toNat - 4 ∧
      StoresBigEndian (s.reg .esp - 4#32) 4 (s.eip + 8#32) s t ∧
        SameRegsExcept [.esp] s t ∧ SameFlags s t ∧ SameStatus s t

/-- `ret` with something to pop loads `eip` with the dword at `esp` and raises `esp` by 4 (R159). -/
def Obligations.ReturnPopsInstructionPointer : Prop :=
  ∀ s : State, (s.reg .esp).toNat ≤ 0xFFFFFFFB →
    ∃ t, exec .ret s = .next t ∧ t.eip.toNat = loadedValue s .dword (s.reg .esp) ∧
      (t.reg .esp).toNat = (s.reg .esp).toNat + 4 ∧
        SameRegsExcept [.esp] s t ∧ SameFlags s t ∧ SameMemory s t ∧ SameStatus s t

/-- The two stack checks: a push, `pshr` or `call` with `esp` below 4 raises StackOverflow, a pop or `ret` with `esp` above
0xFFFFFFFB raises StackUnderflow, each before the instruction changes any state; so does a pop or `ret` after reset (R161). -/
def Obligations.StackChecksComeBeforeAnyChange : Prop :=
  (∀ (r : Reg) (imm : Word) (s : State), (s.reg .esp).toNat < 4 →
    (∃ t, exec (.psh imm) s = .next t ∧ RaisedAndNothingElse .stackOverflow s t) ∧
      (∃ t, exec (.pshr (.reg r)) s = .next t ∧ RaisedAndNothingElse .stackOverflow s t) ∧
        ∃ t, exec (.call imm) s = .next t ∧ RaisedAndNothingElse .stackOverflow s t) ∧
    (∀ (r : Reg) (s : State), (s.reg .esp).toNat > 0xFFFFFFFB →
      (∃ t, exec (.pop (.reg r)) s = .next t ∧ RaisedAndNothingElse .stackUnderflow s t) ∧
        ∃ t, exec .ret s = .next t ∧ RaisedAndNothingElse .stackUnderflow s t) ∧
      (State.reset.reg .esp).toNat > 0xFFFFFFFB

/-- A push followed by a pop gives the value back and restores the stack pointer (R160). -/
def Obligations.PushThenPopRoundTrips : Prop :=
  ∀ (s t : State) (v : Word) (r : Reg), 4 ≤ (s.reg .esp).toNat → r ≠ .esp → exec (.psh v) s = .next t →
    ∃ u, exec (.pop (.reg r)) t = .next u ∧ u.reg r = v ∧ u.reg .esp = s.reg .esp ∧ SameRegsExcept [r] s u

/-- A `ret` at the state a `call` leaves continues right after the call with the stack pointer restored (R158, R159,
R162). -/
def Obligations.ReturnContinuesAfterCall : Prop :=
  ∀ (s t : State) (imm : Word), 4 ≤ (s.reg .esp).toNat → exec (.call imm) s = .next t →
    ∃ u, exec .ret t = .next u ∧ u.eip = s.eip + 8#32 ∧ SameRegsExcept [] s u

/-! ## Compare and shift -/

/-- R173: the compare flag tells how the first register compares, unsigned, with the immediate, the second register or the
zero-extended value in memory; no register, no memory and no carry flag is written. -/
def Obligations.CompareIsUnsignedForEveryOperandKind : Prop :=
  ∀ (a b m : Reg) (z : Size) (imm : Word) (s : State),
    (∃ t, exec (.cmp (.reg a) imm) s = .next t ∧ WritesCompareFlag (s.reg a).toNat imm.toNat 12 s t) ∧
      (∃ t, exec (.cmpr (.reg a) (.reg b)) s = .next t ∧
        WritesCompareFlag (s.reg a).toNat (s.reg b).toNat 12 s t) ∧
        ∃ t, exec (.cmpa (.reg a) (.size z) (.reg m)) s = .next t ∧
          WritesCompareFlag (s.reg a).toNat (loadedValue s z (s.reg m)) 16 s t

/-- R181: every shift, for every count, under either value of SHIFT_GE32: `(a * 2^c) mod 2^32` and `floor(a / 2^c)`, the
count being first reduced modulo 32 under `mod32`. No flag is written (R182). -/
def Obligations.ShiftsAreLogicalForEveryCount : Prop :=
  ∀ (a b : Reg) (imm : Word) (s : State),
    let count (c : Word) : Nat := match Config.shiftGe32 with
      | .zero => c.toNat
      | .mod32 => c.toNat % 32
    (∃ t v, exec (.shl (.reg a) imm) s = .next t ∧ WritesOneRegister a v 12 s t ∧
        v.toNat = (s.reg a).toNat * 2 ^ count imm % 2 ^ 32) ∧
      (∃ t v, exec (.shlr (.reg a) (.reg b)) s = .next t ∧ WritesOneRegister a v 12 s t ∧
        v.toNat = (s.reg a).toNat * 2 ^ count (s.reg b) % 2 ^ 32) ∧
        (∃ t v, exec (.shr (.reg a) imm) s = .next t ∧ WritesOneRegister a v 12 s t ∧
          v.toNat = (s.reg a).toNat / 2 ^ count imm) ∧
          ∃ t v, exec (.shrr (.reg a) (.reg b)) s = .next t ∧ WritesOneRegister a v 12 s t ∧
            v.toNat = (s.reg a).toNat / 2 ^ count (s.reg b)

/-! ## System -/

/-- `int 0` appends the dump of the registers, `eip` past the instruction and both flags; `hlt` sets the latch and leaves
`eip` past itself; `nop` only moves `eip` (R186, R190, R191). -/
def Obligations.DumpHaltAndNopEffects : Prop :=
  ∀ s : State,
    exec (.int 0#32) s = .next
        { s with
          eip := s.eip + 8#32
          console := s.console ++ [.dump { regs := s.regs, eip := s.eip + 8#32, cmpf := s.cmpf, cf := s.cf }] } ∧
      exec .hlt s = .next { s with eip := s.eip + 4#32, halted := true } ∧
        exec .nop s = .next { s with eip := s.eip + 4#32 }

/-- `int 1` with a width selector of 0, 1 or 2 appends the list of `eax` consecutive elements from `esi` upward, each
big-endian and zero-extended, addresses modulo 2^32, and changes nothing else but `eip` (R187). -/
def Obligations.ListServiceReadsConsecutiveElements : Prop :=
  ∀ (s : State) (z : Size), s.reg .edx = z.code →
    ∃ vs : List Word,
      exec (.int 1#32) s = .next { s with eip := s.eip + 8#32, console := s.console ++ [.list vs] } ∧
        vs.length = (s.reg .eax).toNat ∧
          ∀ (k : Nat) (h : k < vs.length),
            (vs[k]).toNat = loadedValue s z (s.reg .esi + BitVec.ofNat 32 (k * z.nbytes))

/-- `int 2` appends the bytes from `esi` upward before the first zero byte, addresses modulo 2^32, and changes nothing else
but `eip` (R188). -/
def Obligations.StringServiceStopsAtFirstZero : Prop :=
  ∀ (s : State) (k : Nat), k < 2 ^ 32 → s.readByte (s.reg .esi + BitVec.ofNat 32 k) = 0#8 →
    (∀ j, j < k → s.readByte (s.reg .esi + BitVec.ofNat 32 j) ≠ 0#8) →
      exec (.int 2#32) s = .next
        { s with
          eip := s.eip + 8#32
          console := s.console ++
            [.text ((List.range k).map fun j => s.readByte (s.reg .esi + BitVec.ofNat 32 j))] }

/-- Any selector above 2 raises UnknownInterrupt with the selector, and service 1 with a width selector above 2 raises
BadSize with it, also when the count is 0; nothing is emitted (R187, R189). -/
def Obligations.BadInterruptOperandsRaise : Prop :=
  (∀ (n : Word) (s : State), n.toNat > 2 →
    ∃ t, exec (.int n) s = .next t ∧ RaisedAndNothingElse (.unknownInterrupt n) s t) ∧
    ∀ s : State, (s.reg .edx).toNat > 2 →
      ∃ t, exec (.int 1#32) s = .next t ∧ RaisedAndNothingElse (.badSize (s.reg .edx)) s t

/-! ## Reset and load -/

/-- The values after power-on (R39, R270). `esp` and `eip` are the source's; the zeros, the equal flag and the running status
are the spec's decision D7, not the source's (assumption log 4). -/
def Obligations.PowerOnValues : Prop :=
  State.reset.reg .esp = 0xFFFFFFFF#32 ∧ State.reset.eip = 0x80000000#32 ∧
    (∀ r : Reg, r ≠ .esp → State.reset.reg r = 0#32) ∧ State.reset.cmpf = .equal ∧ State.reset.cf = false ∧
      State.reset.halted = false ∧ State.reset.runStatus = .running ∧ (∀ a : Word, State.reset.readByte a = 0#8) ∧
        State.reset.chunks = [] ∧ State.reset.console = []

/-- A register reset gives registers, `eip`, flags, latch and status their power-on values and keeps the memory, every chunk
and the console trace (R271). -/
def Obligations.RegisterResetKeepsMemoryAndConsole : Prop :=
  ∀ s : State,
    (∀ r : Reg, s.registerReset.reg r = State.reset.reg r) ∧ s.registerReset.eip = State.reset.eip ∧
      SameFlags State.reset s.registerReset ∧ s.registerReset.halted = false ∧ s.registerReset.runStatus = .running ∧
        SameMemory s s.registerReset ∧ s.registerReset.console = s.console

/-- A load puts byte i of the buffer at ORIGIN + i modulo 2^32, leaves every other byte, and changes no register, flag,
status or console; a buffer longer than 2^32 bytes is refused; into an empty memory every buffer, also one that wraps, becomes
one chunk with base ORIGIN that holds the whole buffer, and into a memory that has chunks it is a `writeByte` of each byte in
ascending order (R272). That an empty buffer makes no chunk is read from R53 (a), and that a chunk which passes the top of the
address space goes on at address 0 from R272's addresses (assumption log 8). -/
def Obligations.LoadPlacesTheBufferAtOrigin : Prop :=
  ∀ (s : State) (p : List Byte),
    (p.length > 2 ^ 32 → s.load p = none) ∧
      (p.length ≤ 2 ^ 32 →
        ∃ t, s.load p = some t ∧
          (∀ (k : Nat) (h : k < p.length), t.readByte (0x80000000#32 + BitVec.ofNat 32 k) = p[k]) ∧
            SameMemoryExcept 0x80000000#32 p.length s t ∧ t.eip = s.eip ∧ SameRegsExcept [] s t ∧ SameFlags s t ∧
              SameStatus s t ∧
                (s.chunks = [] → 0 < p.length → t.storedChunks = [{ base := 0x80000000, bytes := p }]) ∧
                  (s.chunks = [] → p = [] → t.storedChunks = []) ∧
                    (s.chunks ≠ [] → t = s.writeBytes 0x80000000#32 p))

/-! ## The assembler encoder -/

/-- The length that pass 1 counts for a statement is the length of the line that pass 2 emits for it, whatever the label
values (R203, R205). -/
def Obligations.PassesAgreeOnStatementLengths : Prop :=
  ∀ (table : LabelTable) (off : Nat) (st : Stmt) (is : List Instr),
    st.line table off = .ok is → (is.flatMap encodeBytes).length = st.length

/-- Pass 1 gives a label that is defined once the address ORIGIN plus the lengths of the statements before it (R203,
R209). -/
def Obligations.LabelsNameTheNextEmittedByte : Prop :=
  ∀ (pre post : List Stmt) (name : String) (table : LabelTable),
    passOne 0 [] (pre ++ .labelDef name :: post) = .ok table →
      table.find name = some (0x80000000 + (pre.map Stmt.length).sum)

/-- R208: `$+n` and `$-n` in a jump or call count, unscaled, from the first byte of that statement, and an address outside
0..0xFFFFFFFF is value-too-large. R221: so is a relative displacement above 0xFFFFFFFF, and in every statement whose operand
kinds have a line so is any number, displacement or relative displacement above 0xFFFFFFFF; where none is above it, only the
address of a relative target can be value-too-large. Which failure a statement with an unsupported combination of operands and
such a number reports is open in the spec (assumption log 14), and this statement does not speak of it. -/
def Obligations.RelativeTargetsCountFromTheStatement : Prop :=
  (∀ (table : LabelTable) (off n : Nat) (k : JumpKind),
    let plus (f : Word → Instr) : Except AssemblyError (List Instr) :=
      if n ≤ 0xFFFFFFFF ∧ 0x80000000 + off + n ≤ 0xFFFFFFFF then .ok [f (BitVec.ofNat 32 (0x80000000 + off + n))]
      else .error .valueTooLarge
    let minus (f : Word → Instr) : Except AssemblyError (List Instr) :=
      if n ≤ 0xFFFFFFFF ∧ n ≤ 0x80000000 + off ∧ 0x80000000 + off - n ≤ 0xFFFFFFFF then
        .ok [f (BitVec.ofNat 32 (0x80000000 + off - n))]
      else .error .valueTooLarge
    Stmt.line table off (.jump k (.rel .plus n)) = plus k.instr ∧
      Stmt.line table off (.jump k (.rel .minus n)) = minus k.instr ∧
        Stmt.line table off (.call (.rel .plus n)) = plus .call ∧
          Stmt.line table off (.call (.rel .minus n)) = minus .call) ∧
    ∀ (table : LabelTable) (off : Nat) (st : Stmt),
      (st.supported = true → (∃ o ∈ st.operands, ∃ n, o.magnitude = some n ∧ n > 0xFFFFFFFF) →
        st.line table off = .error .valueTooLarge) ∧
        ((∀ o ∈ st.operands, ∀ n, o.magnitude = some n → n ≤ 0xFFFFFFFF) → st.line table off = .error .valueTooLarge →
          ∃ (sign : Sign) (n : Nat), .rel sign n ∈ st.operands)

/-- The byte image of a program that assembles decodes, from its first byte to its last, to the instructions of its lines,
every one well formed (R202, R204). -/
def Obligations.AssembledImageDecodesToItsLines : Prop :=
  ∀ (ss : List Stmt) (bytes : List Byte), assemble ss = .ok bytes →
    ∃ is : List Instr,
      assembleInstrs ss = .ok is ∧ (∀ i ∈ is, i.wellFormed = true) ∧
        decodeStream bytes.length bytes = .ok is ∧ bytes.length = (ss.map Stmt.length).sum

/-- The displaced load `mov d, sz [r+n]` or `[r-n]`, its four instructions executed in order, for a base other than `esp` and
a destination that is neither the base nor `esp`: it loads from `(r + n) mod 2^32` or `max(r - n, 0)`, restores the base and
`esp`, leaves `cmpf`, and with sign `+` writes `cf` (R213, R215). -/
def Obligations.DisplacedLoadReadsOffsetAddress : Prop :=
  ∀ (s : State) (d r : Reg) (z : Size) (n : Word), 4 ≤ (s.reg .esp).toNat → r ≠ .esp → d ≠ r → d ≠ .esp →
    (∃ t, execAll (expandDisplaced r .plus n (.mrva (.reg d) (.size z) (.reg r))) s = .next t ∧
        (t.reg d).toNat = loadedValue t z (s.reg r + n) ∧ SameRegsExcept [d] s t ∧ t.cmpf = s.cmpf ∧
          (t.cf = true ↔ (s.reg r).toNat + n.toNat > 0xFFFFFFFF) ∧ t.eip = s.eip + 44#32 ∧
            StoresBigEndian (s.reg .esp - 4#32) 4 (s.reg r) s t ∧ SameStatus s t) ∧
      ∃ t, execAll (expandDisplaced r .minus n (.mrva (.reg d) (.size z) (.reg r))) s = .next t ∧
        (t.reg d).toNat = loadedValue t z (BitVec.ofNat 32 ((s.reg r).toNat - n.toNat)) ∧ SameRegsExcept [d] s t ∧
          SameFlags s t ∧ t.eip = s.eip + 44#32 ∧ StoresBigEndian (s.reg .esp - 4#32) 4 (s.reg r) s t ∧ SameStatus s t

/-- The displaced load into its own base register loses the loaded value: every register ends as it began (R281). -/
def Obligations.DisplacedLoadIntoBaseIsLost : Prop :=
  ∀ (s : State) (r : Reg) (z : Size) (sign : Sign) (n : Word), 4 ≤ (s.reg .esp).toNat → r ≠ .esp →
    ∃ t, execAll (expandDisplaced r sign n (.mrva (.reg r) (.size z) (.reg r))) s = .next t ∧
      t.fatal = s.fatal ∧ SameRegsExcept [] s t
end

