-- ==== Sys2Proof/Laws/State.lean ====
section
/-! SUPPORT. What each update of the state does to each field, and reading registers and bytes after it. -/

namespace Sys2Proof.Machine

/-! ## The register file -/

@[simp] theorem Regs.get_set_same (g : Regs) (r : Reg) (v : Word) : (g.set r v).get r = v := by cases r <;> rfl

theorem Regs.get_set_ne (g : Regs) {r q : Reg} (v : Word) (h : q ≠ r) : (g.set r v).get q = g.get q := by
  cases r <;> cases q <;> first | rfl | exact absurd rfl h

theorem Regs.get_set (g : Regs) (r q : Reg) (v : Word) : (g.set r v).get q = if q = r then v else g.get q := by
  split
  next h => subst h; exact get_set_same g q v
  next h => exact get_set_ne g v h

theorem Regs.ext_get {g h : Regs} (e : ∀ r, g.get r = h.get r) : g = h := by
  cases g; cases h
  have h1 := e .eax; have h2 := e .ebx; have h3 := e .ecx; have h4 := e .edx
  have h5 := e .esi; have h6 := e .edi; have h7 := e .ebp; have h8 := e .esp
  simp only [Regs.get] at *
  simp only [*]

theorem State.reg_setReg (s : State) (r q : Reg) (v : Word) : (s.setReg r v).reg q = if q = r then v else s.reg q :=
  Regs.get_set s.regs r q v

@[simp] theorem State.reg_setReg_same (s : State) (r : Reg) (v : Word) : (s.setReg r v).reg r = v :=
  Regs.get_set_same s.regs r v

theorem State.reg_setReg_ne (s : State) {r q : Reg} (v : Word) (h : q ≠ r) : (s.setReg r v).reg q = s.reg q :=
  Regs.get_set_ne s.regs v h

/-! ## `setReg` -/

@[simp] theorem State.setReg_regs (s : State) (r : Reg) (v : Word) : (s.setReg r v).regs = s.regs.set r v := rfl
@[simp] theorem State.setReg_eip (s : State) (r : Reg) (v : Word) : (s.setReg r v).eip = s.eip := rfl
@[simp] theorem State.setReg_cmpf (s : State) (r : Reg) (v : Word) : (s.setReg r v).cmpf = s.cmpf := rfl
@[simp] theorem State.setReg_cf (s : State) (r : Reg) (v : Word) : (s.setReg r v).cf = s.cf := rfl
@[simp] theorem State.setReg_halted (s : State) (r : Reg) (v : Word) : (s.setReg r v).halted = s.halted := rfl
@[simp] theorem State.setReg_fatal (s : State) (r : Reg) (v : Word) : (s.setReg r v).fatal = s.fatal := rfl
@[simp] theorem State.setReg_mem (s : State) (r : Reg) (v : Word) : (s.setReg r v).mem = s.mem := rfl
@[simp] theorem State.setReg_chunks (s : State) (r : Reg) (v : Word) : (s.setReg r v).chunks = s.chunks := rfl
@[simp] theorem State.setReg_console (s : State) (r : Reg) (v : Word) : (s.setReg r v).console = s.console := rfl
@[simp] theorem State.setReg_freeCount (s : State) (r : Reg) (v : Word) : (s.setReg r v).freeCount = s.freeCount := rfl
@[simp] theorem State.setReg_readByte (s : State) (r : Reg) (v : Word) (x : Word) : (s.setReg r v).readByte x = s.readByte x := rfl

/-! ## `setEip` -/

@[simp] theorem State.setEip_regs (s : State) (t : Word) : (s.setEip t).regs = s.regs := rfl
@[simp] theorem State.setEip_eip (s : State) (t : Word) : (s.setEip t).eip = t := rfl
@[simp] theorem State.setEip_cmpf (s : State) (t : Word) : (s.setEip t).cmpf = s.cmpf := rfl
@[simp] theorem State.setEip_cf (s : State) (t : Word) : (s.setEip t).cf = s.cf := rfl
@[simp] theorem State.setEip_halted (s : State) (t : Word) : (s.setEip t).halted = s.halted := rfl
@[simp] theorem State.setEip_fatal (s : State) (t : Word) : (s.setEip t).fatal = s.fatal := rfl
@[simp] theorem State.setEip_mem (s : State) (t : Word) : (s.setEip t).mem = s.mem := rfl
@[simp] theorem State.setEip_chunks (s : State) (t : Word) : (s.setEip t).chunks = s.chunks := rfl
@[simp] theorem State.setEip_console (s : State) (t : Word) : (s.setEip t).console = s.console := rfl
@[simp] theorem State.setEip_freeCount (s : State) (t : Word) : (s.setEip t).freeCount = s.freeCount := rfl
@[simp] theorem State.setEip_reg (s : State) (t : Word) (q : Reg) : (s.setEip t).reg q = s.reg q := rfl
@[simp] theorem State.setEip_readByte (s : State) (t : Word) (x : Word) : (s.setEip t).readByte x = s.readByte x := rfl

/-! ## `advance` -/

@[simp] theorem State.advance_regs (s : State) (n : Nat) : (s.advance n).regs = s.regs := rfl
@[simp] theorem State.advance_eip (s : State) (n : Nat) : (s.advance n).eip = s.eip + BitVec.ofNat 32 n := rfl
@[simp] theorem State.advance_cmpf (s : State) (n : Nat) : (s.advance n).cmpf = s.cmpf := rfl
@[simp] theorem State.advance_cf (s : State) (n : Nat) : (s.advance n).cf = s.cf := rfl
@[simp] theorem State.advance_halted (s : State) (n : Nat) : (s.advance n).halted = s.halted := rfl
@[simp] theorem State.advance_fatal (s : State) (n : Nat) : (s.advance n).fatal = s.fatal := rfl
@[simp] theorem State.advance_mem (s : State) (n : Nat) : (s.advance n).mem = s.mem := rfl
@[simp] theorem State.advance_chunks (s : State) (n : Nat) : (s.advance n).chunks = s.chunks := rfl
@[simp] theorem State.advance_console (s : State) (n : Nat) : (s.advance n).console = s.console := rfl
@[simp] theorem State.advance_freeCount (s : State) (n : Nat) : (s.advance n).freeCount = s.freeCount := rfl
@[simp] theorem State.advance_reg (s : State) (n : Nat) (q : Reg) : (s.advance n).reg q = s.reg q := rfl
@[simp] theorem State.advance_readByte (s : State) (n : Nat) (x : Word) : (s.advance n).readByte x = s.readByte x := rfl

/-! ## `setCmpf` -/

@[simp] theorem State.setCmpf_regs (s : State) (c : CompareFlag) : (s.setCmpf c).regs = s.regs := rfl
@[simp] theorem State.setCmpf_eip (s : State) (c : CompareFlag) : (s.setCmpf c).eip = s.eip := rfl
@[simp] theorem State.setCmpf_cmpf (s : State) (c : CompareFlag) : (s.setCmpf c).cmpf = c := rfl
@[simp] theorem State.setCmpf_cf (s : State) (c : CompareFlag) : (s.setCmpf c).cf = s.cf := rfl
@[simp] theorem State.setCmpf_halted (s : State) (c : CompareFlag) : (s.setCmpf c).halted = s.halted := rfl
@[simp] theorem State.setCmpf_fatal (s : State) (c : CompareFlag) : (s.setCmpf c).fatal = s.fatal := rfl
@[simp] theorem State.setCmpf_mem (s : State) (c : CompareFlag) : (s.setCmpf c).mem = s.mem := rfl
@[simp] theorem State.setCmpf_chunks (s : State) (c : CompareFlag) : (s.setCmpf c).chunks = s.chunks := rfl
@[simp] theorem State.setCmpf_console (s : State) (c : CompareFlag) : (s.setCmpf c).console = s.console := rfl
@[simp] theorem State.setCmpf_freeCount (s : State) (c : CompareFlag) : (s.setCmpf c).freeCount = s.freeCount := rfl
@[simp] theorem State.setCmpf_reg (s : State) (c : CompareFlag) (q : Reg) : (s.setCmpf c).reg q = s.reg q := rfl
@[simp] theorem State.setCmpf_readByte (s : State) (c : CompareFlag) (x : Word) : (s.setCmpf c).readByte x = s.readByte x := rfl

/-! ## `setCf` -/

@[simp] theorem State.setCf_regs (s : State) (b : Bool) : (s.setCf b).regs = s.regs := rfl
@[simp] theorem State.setCf_eip (s : State) (b : Bool) : (s.setCf b).eip = s.eip := rfl
@[simp] theorem State.setCf_cmpf (s : State) (b : Bool) : (s.setCf b).cmpf = s.cmpf := rfl
@[simp] theorem State.setCf_cf (s : State) (b : Bool) : (s.setCf b).cf = b := rfl
@[simp] theorem State.setCf_halted (s : State) (b : Bool) : (s.setCf b).halted = s.halted := rfl
@[simp] theorem State.setCf_fatal (s : State) (b : Bool) : (s.setCf b).fatal = s.fatal := rfl
@[simp] theorem State.setCf_mem (s : State) (b : Bool) : (s.setCf b).mem = s.mem := rfl
@[simp] theorem State.setCf_chunks (s : State) (b : Bool) : (s.setCf b).chunks = s.chunks := rfl
@[simp] theorem State.setCf_console (s : State) (b : Bool) : (s.setCf b).console = s.console := rfl
@[simp] theorem State.setCf_freeCount (s : State) (b : Bool) : (s.setCf b).freeCount = s.freeCount := rfl
@[simp] theorem State.setCf_reg (s : State) (b : Bool) (q : Reg) : (s.setCf b).reg q = s.reg q := rfl
@[simp] theorem State.setCf_readByte (s : State) (b : Bool) (x : Word) : (s.setCf b).readByte x = s.readByte x := rfl

/-! ## `halt` -/

@[simp] theorem State.halt_regs (s : State) : (s.halt).regs = s.regs := rfl
@[simp] theorem State.halt_eip (s : State) : (s.halt).eip = s.eip := rfl
@[simp] theorem State.halt_cmpf (s : State) : (s.halt).cmpf = s.cmpf := rfl
@[simp] theorem State.halt_cf (s : State) : (s.halt).cf = s.cf := rfl
@[simp] theorem State.halt_halted (s : State) : (s.halt).halted = true := rfl
@[simp] theorem State.halt_fatal (s : State) : (s.halt).fatal = s.fatal := rfl
@[simp] theorem State.halt_mem (s : State) : (s.halt).mem = s.mem := rfl
@[simp] theorem State.halt_chunks (s : State) : (s.halt).chunks = s.chunks := rfl
@[simp] theorem State.halt_console (s : State) : (s.halt).console = s.console := rfl
@[simp] theorem State.halt_freeCount (s : State) : (s.halt).freeCount = s.freeCount := rfl
@[simp] theorem State.halt_reg (s : State) (q : Reg) : (s.halt).reg q = s.reg q := rfl
@[simp] theorem State.halt_readByte (s : State) (x : Word) : (s.halt).readByte x = s.readByte x := rfl

/-! ## `emit` -/

@[simp] theorem State.emit_regs (s : State) (e : ConsoleEvent) : (s.emit e).regs = s.regs := rfl
@[simp] theorem State.emit_eip (s : State) (e : ConsoleEvent) : (s.emit e).eip = s.eip := rfl
@[simp] theorem State.emit_cmpf (s : State) (e : ConsoleEvent) : (s.emit e).cmpf = s.cmpf := rfl
@[simp] theorem State.emit_cf (s : State) (e : ConsoleEvent) : (s.emit e).cf = s.cf := rfl
@[simp] theorem State.emit_halted (s : State) (e : ConsoleEvent) : (s.emit e).halted = s.halted := rfl
@[simp] theorem State.emit_fatal (s : State) (e : ConsoleEvent) : (s.emit e).fatal = s.fatal := rfl
@[simp] theorem State.emit_mem (s : State) (e : ConsoleEvent) : (s.emit e).mem = s.mem := rfl
@[simp] theorem State.emit_chunks (s : State) (e : ConsoleEvent) : (s.emit e).chunks = s.chunks := rfl
@[simp] theorem State.emit_console (s : State) (e : ConsoleEvent) : (s.emit e).console = s.console ++ [e] := rfl
@[simp] theorem State.emit_freeCount (s : State) (e : ConsoleEvent) : (s.emit e).freeCount = s.freeCount := rfl
@[simp] theorem State.emit_reg (s : State) (e : ConsoleEvent) (q : Reg) : (s.emit e).reg q = s.reg q := rfl
@[simp] theorem State.emit_readByte (s : State) (e : ConsoleEvent) (x : Word) : (s.emit e).readByte x = s.readByte x := rfl

/-! ## `writeByte`, `writeBytes` and `writeMem` -/

@[simp] theorem State.writeByte_regs (s : State) (a : Word) (b : Byte) : (s.writeByte a b).regs = s.regs := rfl
@[simp] theorem State.writeByte_eip (s : State) (a : Word) (b : Byte) : (s.writeByte a b).eip = s.eip := rfl
@[simp] theorem State.writeByte_cmpf (s : State) (a : Word) (b : Byte) : (s.writeByte a b).cmpf = s.cmpf := rfl
@[simp] theorem State.writeByte_cf (s : State) (a : Word) (b : Byte) : (s.writeByte a b).cf = s.cf := rfl
@[simp] theorem State.writeByte_halted (s : State) (a : Word) (b : Byte) : (s.writeByte a b).halted = s.halted := rfl
@[simp] theorem State.writeByte_fatal (s : State) (a : Word) (b : Byte) : (s.writeByte a b).fatal = s.fatal := rfl
@[simp] theorem State.writeByte_mem (s : State) (a : Word) (b : Byte) : (s.writeByte a b).mem = s.mem.write a.toNat b := rfl
@[simp] theorem State.writeByte_chunks (s : State) (a : Word) (b : Byte) : (s.writeByte a b).chunks = touchChunk a.toNat s.chunks := rfl
@[simp] theorem State.writeByte_console (s : State) (a : Word) (b : Byte) : (s.writeByte a b).console = s.console := rfl
@[simp] theorem State.writeByte_freeCount (s : State) (a : Word) (b : Byte) : (s.writeByte a b).freeCount = s.freeCount := rfl
@[simp] theorem State.writeByte_reg (s : State) (a : Word) (b : Byte) (q : Reg) : (s.writeByte a b).reg q = s.reg q := rfl

/-- `writeBytes` changes the memory and the chunks only. -/
theorem State.writeBytes_eq (s : State) (a : Word) (bs : List Byte) :
    s.writeBytes a bs = { s with mem := (s.writeBytes a bs).mem, chunks := (s.writeBytes a bs).chunks } := by
  induction bs generalizing s a with
  | nil => rfl
  | cons b bs ih =>
    show (s.writeByte a b).writeBytes (a + 1#32) bs = _
    rw [ih]
    rfl

@[simp] theorem State.writeBytes_regs (s : State) (a : Word) (bs : List Byte) : (s.writeBytes a bs).regs = s.regs := by rw [State.writeBytes_eq]
@[simp] theorem State.writeBytes_eip (s : State) (a : Word) (bs : List Byte) : (s.writeBytes a bs).eip = s.eip := by rw [State.writeBytes_eq]
@[simp] theorem State.writeBytes_cmpf (s : State) (a : Word) (bs : List Byte) : (s.writeBytes a bs).cmpf = s.cmpf := by rw [State.writeBytes_eq]
@[simp] theorem State.writeBytes_cf (s : State) (a : Word) (bs : List Byte) : (s.writeBytes a bs).cf = s.cf := by rw [State.writeBytes_eq]
@[simp] theorem State.writeBytes_halted (s : State) (a : Word) (bs : List Byte) : (s.writeBytes a bs).halted = s.halted := by rw [State.writeBytes_eq]
@[simp] theorem State.writeBytes_fatal (s : State) (a : Word) (bs : List Byte) : (s.writeBytes a bs).fatal = s.fatal := by rw [State.writeBytes_eq]
@[simp] theorem State.writeBytes_console (s : State) (a : Word) (bs : List Byte) : (s.writeBytes a bs).console = s.console := by rw [State.writeBytes_eq]
@[simp] theorem State.writeBytes_freeCount (s : State) (a : Word) (bs : List Byte) : (s.writeBytes a bs).freeCount = s.freeCount := by rw [State.writeBytes_eq]
@[simp] theorem State.writeBytes_reg (s : State) (a : Word) (bs : List Byte) (q : Reg) : (s.writeBytes a bs).reg q = s.reg q := by
  simp only [State.reg, State.writeBytes_regs]
@[simp] theorem State.writeMem_regs (s : State) (z : Size) (a v : Word) : (s.writeMem z a v).regs = s.regs := State.writeBytes_regs _ _ _
@[simp] theorem State.writeMem_eip (s : State) (z : Size) (a v : Word) : (s.writeMem z a v).eip = s.eip := State.writeBytes_eip _ _ _
@[simp] theorem State.writeMem_cmpf (s : State) (z : Size) (a v : Word) : (s.writeMem z a v).cmpf = s.cmpf := State.writeBytes_cmpf _ _ _
@[simp] theorem State.writeMem_cf (s : State) (z : Size) (a v : Word) : (s.writeMem z a v).cf = s.cf := State.writeBytes_cf _ _ _
@[simp] theorem State.writeMem_halted (s : State) (z : Size) (a v : Word) : (s.writeMem z a v).halted = s.halted := State.writeBytes_halted _ _ _
@[simp] theorem State.writeMem_fatal (s : State) (z : Size) (a v : Word) : (s.writeMem z a v).fatal = s.fatal := State.writeBytes_fatal _ _ _
@[simp] theorem State.writeMem_console (s : State) (z : Size) (a v : Word) : (s.writeMem z a v).console = s.console := State.writeBytes_console _ _ _
@[simp] theorem State.writeMem_freeCount (s : State) (z : Size) (a v : Word) : (s.writeMem z a v).freeCount = s.freeCount := State.writeBytes_freeCount _ _ _
@[simp] theorem State.writeMem_reg (s : State) (z : Size) (a v : Word) (q : Reg) : (s.writeMem z a v).reg q = s.reg q := by
  simp only [State.reg, State.writeMem_regs]

/-! ## Reading memory after an update that leaves it -/

/-- Two states with the same memory read the same bytes. -/
theorem State.readBytes_congr {s t : State} (h : t.mem = s.mem) (a : Word) (n : Nat) : t.readBytes a n = s.readBytes a n := by
  induction n generalizing a with
  | zero => rfl
  | succ n ih => simp only [State.readBytes, State.readByte, h, ih]

/-- Two states with the same memory read the same values. -/
theorem State.readMem_congr {s t : State} (h : t.mem = s.mem) (z : Size) (a : Word) : t.readMem z a = s.readMem z a := by
  simp only [State.readMem, State.readBytes_congr h]

@[simp] theorem State.setReg_readMem (s : State) (r : Reg) (v : Word) (z : Size) (x : Word) : (s.setReg r v).readMem z x = s.readMem z x :=
  State.readMem_congr (s := s) (t := s.setReg r v) rfl z x
@[simp] theorem State.setEip_readMem (s : State) (t : Word) (z : Size) (x : Word) : (s.setEip t).readMem z x = s.readMem z x :=
  State.readMem_congr (s := s) (t := s.setEip t) rfl z x
@[simp] theorem State.advance_readMem (s : State) (n : Nat) (z : Size) (x : Word) : (s.advance n).readMem z x = s.readMem z x :=
  State.readMem_congr (s := s) (t := s.advance n) rfl z x
@[simp] theorem State.setCmpf_readMem (s : State) (c : CompareFlag) (z : Size) (x : Word) : (s.setCmpf c).readMem z x = s.readMem z x :=
  State.readMem_congr (s := s) (t := s.setCmpf c) rfl z x
@[simp] theorem State.setCf_readMem (s : State) (b : Bool) (z : Size) (x : Word) : (s.setCf b).readMem z x = s.readMem z x :=
  State.readMem_congr (s := s) (t := s.setCf b) rfl z x
@[simp] theorem State.halt_readMem (s : State) (z : Size) (x : Word) : (s.halt).readMem z x = s.readMem z x :=
  State.readMem_congr (s := s) (t := s.halt) rfl z x
@[simp] theorem State.emit_readMem (s : State) (e : ConsoleEvent) (z : Size) (x : Word) : (s.emit e).readMem z x = s.readMem z x :=
  State.readMem_congr (s := s) (t := s.emit e) rfl z x

/-! ## The run status -/

theorem State.runStatus_running_iff (s : State) : s.runStatus = .running ↔ s.halted = false ∧ s.fatal = none := by
  unfold State.runStatus
  cases s.halted <;> cases s.fatal <;> simp

end Sys2Proof.Machine
end

