-- ==== Sys2Proof/Laws/Memory.lean ====
section
/-! SUPPORT. The laws of the memory: reading after writing, and that every memory operation keeps the canonical form of the
memory, the form of the chunks, and that the chunks hold every non-zero byte. -/

namespace Sys2Proof.Machine

/-! ## Reading after writing one byte -/

theorem Memory.read_eq_zero {a : Nat} {m : Memory} (h : ∀ c ∈ m, c.1 ≠ a) : m.read a = 0#8 := by
  induction m with
  | nil => rfl
  | cons c m ih =>
    rw [Memory.read, if_neg (h c (by simp))]
    exact ih (fun d hd => h d (by simp [hd]))

theorem Memory.read_filter_ne {a x : Nat} (m : Memory) (h : x ≠ a) :
    Memory.read x (m.filter (fun c => c.1 ≠ a)) = m.read x := by
  induction m with
  | nil => rfl
  | cons c m ih =>
    by_cases hc : c.1 = a
    · rw [List.filter_cons_of_neg (by simp [hc]), ih, Memory.read, if_neg (by omega)]
    · rw [List.filter_cons_of_pos (by simp [hc])]
      simp only [Memory.read, ih]

theorem Memory.read_insert_same (a : Nat) (b : Byte) (m : Memory) : Memory.read a (m.insert a b) = b := by
  induction m with
  | nil => simp [Memory.insert, Memory.read]
  | cons c m ih =>
    unfold Memory.insert
    split
    · simp [Memory.read]
    · split
      · simp [Memory.read]
      · rw [Memory.read, if_neg (by omega), ih]

theorem Memory.read_insert_ne {a x : Nat} (b : Byte) (m : Memory) (h : x ≠ a) :
    Memory.read x (m.insert a b) = m.read x := by
  induction m with
  | nil => simp [Memory.insert, Memory.read, Ne.symm h]
  | cons c m ih =>
    unfold Memory.insert
    split
    · simp [Memory.read, Ne.symm h]
    · split
      · simp [Memory.read, ← ‹a = c.1›, Ne.symm h]
      · simp only [Memory.read, ih]

/-- Reading a byte just written gives it back (S8). -/
theorem Memory.read_write_same (a : Nat) (b : Byte) (m : Memory) : Memory.read a (m.write a b) = b := by
  unfold Memory.write
  split
  next h => subst h; exact Memory.read_eq_zero (fun c hc => by simpa using (List.mem_filter.mp hc).2)
  next => exact Memory.read_insert_same a b m

/-- A write leaves every other byte alone. -/
theorem Memory.read_write_ne {a x : Nat} (b : Byte) (m : Memory) (h : x ≠ a) :
    Memory.read x (m.write a b) = m.read x := by
  unfold Memory.write
  split
  · exact Memory.read_filter_ne m h
  · exact Memory.read_insert_ne b m h

theorem State.readByte_writeByte (s : State) (a x : Word) (b : Byte) :
    (s.writeByte a b).readByte x = if x = a then b else s.readByte x := by
  unfold State.readByte State.writeByte
  split
  next h => subst h; exact Memory.read_write_same _ _ _
  next h => exact Memory.read_write_ne _ _ (fun e => h (BitVec.eq_of_toNat_eq e))

/-! ## The canonical form of the memory -/

theorem Memory.mem_insert {a : Nat} {b : Byte} {m : Memory} {c : Host.Cell} (h : c ∈ m.insert a b) :
    c = (a, b) ∨ c ∈ m := by
  induction m with
  | nil => simpa [Memory.insert] using h
  | cons d m ih =>
    unfold Memory.insert at h
    split at h
    · simpa using h
    · split at h
      · rcases List.mem_cons.mp h with h | h <;> simp [h]
      · rcases List.mem_cons.mp h with h | h
        · simp [h]
        · rcases ih h with h | h <;> simp [h]

theorem Memory.insert_rising {a : Nat} {b : Byte} {m : Memory} (h : m.Pairwise (fun c d => c.1 < d.1)) :
    (m.insert a b).Pairwise (fun c d => c.1 < d.1) := by
  induction m with
  | nil => simp [Memory.insert]
  | cons d m ih =>
    rw [List.pairwise_cons] at h
    unfold Memory.insert
    split
    next hlt =>
      refine List.pairwise_cons.mpr ⟨fun c hc => ?_, List.pairwise_cons.mpr h⟩
      rcases List.mem_cons.mp hc with rfl | hc
      · exact hlt
      · exact Nat.lt_trans hlt (h.1 c hc)
    next hge =>
      split
      next heq => exact List.pairwise_cons.mpr ⟨fun c hc => by simpa [heq] using h.1 c hc, h.2⟩
      next hne =>
        refine List.pairwise_cons.mpr ⟨fun c hc => ?_, ih h.2⟩
        rcases Memory.mem_insert hc with rfl | hc
        · show d.1 < a
          omega
        · exact h.1 c hc

/-- A write keeps the canonical form of the memory. -/
theorem Memory.write_wf {a : Nat} {b : Byte} {m : Memory} (ha : a < 2 ^ 32) (h : m.wf) : (m.write a b).wf := by
  unfold Memory.write
  split
  next => exact ⟨h.1.filter _, fun c hc => h.2 c (List.mem_filter.mp hc).1⟩
  next hb =>
    refine ⟨Memory.insert_rising h.1, fun c hc => ?_⟩
    rcases Memory.mem_insert hc with rfl | hc
    · exact ⟨ha, hb⟩
    · exact h.2 c hc

theorem Memory.mem_write {a : Nat} {b : Byte} {m : Memory} {c : Host.Cell} (h : c ∈ m.write a b) : c.1 = a ∨ c ∈ m := by
  unfold Memory.write at h
  split at h
  · exact .inr (List.mem_filter.mp h).1
  · rcases Memory.mem_insert h with rfl | h
    · exact .inl rfl
    · exact .inr h

theorem State.writeByte_memory {s : State} (a : Word) (b : Byte) (h : s.mem.wf) : (s.writeByte a b).mem.wf :=
  Memory.write_wf a.isLt h

theorem State.writeBytes_memory {s : State} (a : Word) (bs : List Byte) (h : s.mem.wf) : (s.writeBytes a bs).mem.wf := by
  induction bs generalizing s a with
  | nil => exact h
  | cons b bs ih => exact ih _ (State.writeByte_memory a b h)

/-- `MemWrite` keeps the canonical form of the memory. -/
theorem State.writeMem_memory {s : State} (z : Size) (a v : Word) (h : s.mem.wf) : (s.writeMem z a v).mem.wf :=
  State.writeBytes_memory a _ h

/-- A load keeps the canonical form of the memory. -/
theorem State.loadAt_memory {s : State} (a : Word) (bs : List Byte) (h : s.mem.wf) : (s.loadAt a bs).mem.wf := by
  unfold State.loadAt
  refine State.writeBytes_memory a bs ?_
  split <;> exact h

/-- The memory after power-on has the canonical form. -/
theorem State.reset_memory : State.reset.mem.wf := by decide

/-! ## The chunks -/

theorem Chunk.covers_iff {c : Chunk} {a : Nat} :
    c.covers a = true ↔ c.base ≤ a ∧ a < c.base + c.len ∨ a + 2 ^ 32 < c.base + c.len := by
  simp only [Chunk.covers, rangeContains, decide_eq_true_eq]

theorem placeChunk_any {a x : Nat} {cs : List Chunk} (h : cs.any (·.covers x)) : (placeChunk a cs).any (·.covers x) := by
  induction cs with
  | nil => simp at h
  | cons c cs ih =>
    unfold placeChunk
    rw [List.any_cons, Bool.or_eq_true] at h
    split
    · rw [List.any_cons, Bool.or_eq_true]
      exact h.imp id ih
    · split
      · rw [List.any_cons, Bool.or_eq_true]
        refine h.imp (fun h => ?_) id
        rw [Chunk.covers_iff] at h ⊢
        show a ≤ x ∧ x < a + (c.len + (c.base - a)) ∨ x + 2 ^ 32 < a + (c.len + (c.base - a))
        omega
      · rw [List.any_cons, Bool.or_eq_true, List.any_cons, Bool.or_eq_true]
        exact .inr h

theorem placeChunk_covers {a : Nat} {cs : List Chunk} (h : ∀ c ∈ cs, 1 ≤ c.len) : (placeChunk a cs).any (·.covers a) := by
  induction cs with
  | nil => simp [placeChunk, Chunk.covers_iff]
  | cons c cs ih =>
    have hc := h c (by simp)
    unfold placeChunk
    split
    · rw [List.any_cons, ih (fun d hd => h d (by simp [hd])), Bool.or_true]
    · split <;> simp [Chunk.covers_iff]
      omega

/-- A chunk of the result begins at the placed address, or it is a chunk of the collection. -/
theorem placeChunk_mem {a : Nat} {cs : List Chunk} {d : Chunk} (h : d ∈ placeChunk a cs) :
    d ∈ cs ∨ d.base = a ∧ (d.len = 1 ∨ ∃ c ∈ cs, a < c.base ∧ a + d.len = c.base + c.len) := by
  induction cs with
  | nil =>
    obtain rfl : d = { base := a, len := 1 } := by simpa [placeChunk] using h
    exact .inr ⟨rfl, .inl rfl⟩
  | cons c cs ih =>
    unfold placeChunk at h
    split at h
    · rcases List.mem_cons.mp h with rfl | h
      · exact .inl (by simp)
      · rcases ih h with h | ⟨hb, h | ⟨e, he, h⟩⟩
        · exact .inl (by simp [h])
        · exact .inr ⟨hb, .inl h⟩
        · exact .inr ⟨hb, .inr ⟨e, by simp [he], h⟩⟩
    · split at h
      · rcases List.mem_cons.mp h with rfl | h
        · exact .inr ⟨rfl, .inr ⟨c, by simp, by omega, show a + (c.len + (c.base - a)) = _ by omega⟩⟩
        · exact .inl (by simp [h])
      · rcases List.mem_cons.mp h with rfl | h
        · exact .inr ⟨rfl, .inl rfl⟩
        · exact .inl h

/-- Placing an address that no chunk covers keeps the chunks ascending and apart. -/
theorem placeChunk_pairwise {a : Nat} {cs : List Chunk} (h : cs.Pairwise (fun c d => c.base + c.len ≤ d.base))
    (hn : ∀ c ∈ cs, c.covers a = false) : (placeChunk a cs).Pairwise (fun c d => c.base + c.len ≤ d.base) := by
  induction cs with
  | nil => simp [placeChunk]
  | cons c cs ih =>
    obtain ⟨hp, ht⟩ := List.pairwise_cons.mp h
    have hca : ¬(c.base ≤ a ∧ a < c.base + c.len) := fun e => by
      have := Chunk.covers_iff.mpr (.inl e)
      rw [hn c (by simp)] at this
      cases this
    unfold placeChunk
    split
    next hle =>
      refine List.pairwise_cons.mpr ⟨fun d hd => ?_, ih ht (fun d hd => hn d (by simp [hd]))⟩
      rcases placeChunk_mem hd with hd | ⟨hb, _⟩
      · exact hp d hd
      · omega
    next hgt =>
      split
      next =>
        refine List.pairwise_cons.mpr ⟨fun d hd => ?_, ht⟩
        have := hp d hd
        show a + (c.len + (c.base - a)) ≤ d.base
        omega
      next =>
        refine List.pairwise_cons.mpr ⟨fun d hd => ?_, h⟩
        show a + 1 ≤ d.base
        rcases List.mem_cons.mp hd with rfl | hd
        · omega
        · have := hp d hd
          omega

/-- Placing an address that no chunk covers keeps the form of the chunks. -/
theorem placeChunk_wellFormed {a : Nat} {cs : List Chunk} (ha : a < 2 ^ 32) (h : chunksWellFormed cs)
    (hn : ∀ c ∈ cs, c.covers a = false) : chunksWellFormed (placeChunk a cs) := by
  have hend : ∀ c ∈ cs, c.base + c.len ≤ a + 2 ^ 32 := fun c hc => by
    by_contra hlt
    have := Chunk.covers_iff.mpr (.inr (by omega : a + 2 ^ 32 < c.base + c.len))
    rw [hn c hc] at this
    cases this
  refine ⟨placeChunk_pairwise h.1 hn, fun c hc => ?_⟩
  rcases placeChunk_mem hc with hc | ⟨hb, hl⟩
  · obtain ⟨h1, h2, h3⟩ := h.2 c hc
    refine ⟨h1, h2, fun d hd => ?_⟩
    rcases placeChunk_mem hd with hd | ⟨hdb, _⟩
    · exact h3 d hd
    · rw [hdb]
      exact hend c hc
  · refine ⟨by omega, ?_, fun d hd => ?_⟩
    · rcases hl with hl | ⟨e, he, _⟩
      · omega
      · have := (h.2 e he).2.1
        omega
    · rcases hl with hl | ⟨e, he, _, hl⟩
      · omega
      · rw [hb, hl]
        rcases placeChunk_mem hd with hd | ⟨hdb, _⟩
        · exact (h.2 e he).2.2 d hd
        · rw [hdb]
          exact hend e he

/-- `writeByte` keeps the form of the chunks (R53). -/
theorem touchChunk_wellFormed {a : Nat} {cs : List Chunk} (ha : a < 2 ^ 32) (h : chunksWellFormed cs) :
    chunksWellFormed (touchChunk a cs) := by
  unfold touchChunk
  split
  next => exact h
  next hn => exact placeChunk_wellFormed ha h (fun c hc => by
    by_contra hcov
    exact hn (List.any_eq_true.mpr ⟨c, hc, by simpa using hcov⟩))

theorem touchChunk_any {a x : Nat} {cs : List Chunk} (h : cs.any (·.covers x)) : (touchChunk a cs).any (·.covers x) := by
  unfold touchChunk
  split
  · exact h
  · exact placeChunk_any h

theorem touchChunk_covers {a : Nat} {cs : List Chunk} (h : chunksWellFormed cs) : (touchChunk a cs).any (·.covers a) := by
  unfold touchChunk
  split
  · assumption
  · exact placeChunk_covers (fun c hc => (h.2 c hc).2.1)

/-- `writeByte` keeps every non-zero byte inside a chunk. -/
theorem State.writeByte_cover {s : State} (a : Word) (b : Byte) (h : chunksWellFormed s.chunks) (hc : chunksCover s) :
    chunksCover (s.writeByte a b) := by
  intro c hm
  rcases Memory.mem_write hm with e | hm
  · rw [State.writeByte_chunks, e]
    exact touchChunk_covers h
  · exact touchChunk_any (hc c hm)

/-- The memory part of the invariant: what the memory operations keep together. -/
structure MemoryInv (s : State) : Prop where
  memory : s.mem.wf
  chunks : chunksWellFormed s.chunks
  cover : chunksCover s

theorem MemoryInv.writeByte {s : State} (h : MemoryInv s) (a : Word) (b : Byte) : MemoryInv (s.writeByte a b) :=
  ⟨State.writeByte_memory a b h.memory, touchChunk_wellFormed a.isLt h.chunks, State.writeByte_cover a b h.chunks h.cover⟩

theorem MemoryInv.writeBytes {s : State} (h : MemoryInv s) (a : Word) (bs : List Byte) : MemoryInv (s.writeBytes a bs) := by
  induction bs generalizing s a with
  | nil => exact h
  | cons b bs ih => exact ih (h.writeByte a b) _

/-- `MemWrite` keeps the memory part of the invariant. -/
theorem MemoryInv.writeMem {s : State} (h : MemoryInv s) (z : Size) (a v : Word) : MemoryInv (s.writeMem z a v) :=
  h.writeBytes a _

/-- A load of at most 2^32 bytes, into an empty memory or not, keeps the memory part of the invariant. -/
theorem MemoryInv.loadAt {s : State} (h : MemoryInv s) (a : Word) (bs : List Byte) (hl : bs.length ≤ 2 ^ 32) :
    MemoryInv (s.loadAt a bs) := by
  unfold State.loadAt
  refine MemoryInv.writeBytes ?_ a bs
  split
  next he =>
    have hc : s.chunks = [] := by simpa using he
    have hm : s.mem = [] := List.eq_nil_iff_forall_not_mem.mpr fun c hm => by
      have := h.cover c hm
      rw [hc] at this
      simp at this
    refine ⟨h.memory, ?_, fun c hm' => ?_⟩
    · have := a.isLt
      show chunksWellFormed (loadedChunk a bs.length)
      unfold loadedChunk
      split
      · exact ⟨List.Pairwise.nil, by simp⟩
      · refine ⟨List.pairwise_singleton _ _, ?_⟩
        simp only [List.mem_singleton, forall_eq]
        omega
    · rw [show c ∈ s.mem ↔ False by simp [hm]] at hm'
      exact hm'.elim
  next => exact h

/-- The memory part of the invariant depends on the memory and the chunks only. -/
theorem MemoryInv.congr {s t : State} (h : MemoryInv s) (hm : t.mem = s.mem) (hc : t.chunks = s.chunks) : MemoryInv t :=
  ⟨hm ▸ h.memory, hc ▸ h.chunks, fun c hcm => by rw [hc]; exact h.cover c (hm ▸ hcm)⟩

/-! ## Multi-byte accesses -/

/-- `writeBytes` leaves every byte outside the written range alone. -/
theorem State.readByte_writeBytes_ne (s : State) (a x : Word) (bs : List Byte)
    (h : ∀ k, k < bs.length → x ≠ a + BitVec.ofNat 32 k) : (s.writeBytes a bs).readByte x = s.readByte x := by
  induction bs generalizing s a with
  | nil => rfl
  | cons b bs ih =>
    show ((s.writeByte a b).writeBytes (a + 1#32) bs).readByte x = _
    rw [ih, State.readByte_writeByte, if_neg]
    · simpa using h 0 (by simp)
    · intro k hk e
      refine h (k + 1) (by simpa using hk) ?_
      rw [e, BitVec.add_assoc]
      congr 1
      apply BitVec.eq_of_toNat_eq
      simp [Nat.add_comm]

theorem lowBytes_length (z : Size) (v : Word) : (lowBytes z v).length = z.nbytes := by cases z <;> rfl

/-- `MemWrite` leaves every byte outside the access alone. -/
theorem State.writeMem_frame (s : State) (z : Size) (a v : Word) : SameMemoryExcept a z.nbytes s (s.writeMem z a v) :=
  fun x hx => State.readByte_writeBytes_ne s a x _ (by simpa [lowBytes_length] using hx)

end Sys2Proof.Machine
end

