-- ==== Sys2Proof/Laws/Ops.lean ====
section
/-! SUPPORT. For each shared operation, one lemma that says everything it can do when it answers a next state; later proofs
cite these instead of unfolding the operation. -/

namespace Sys2Proof.Machine

/-! ## Raising a fatal condition -/

/-- A raise always answers a next state, and it is this one. -/
theorem raise_next_iff {c : FatalCondition} {n : Nat} {s t : State} :
    raise c n s = .next t ↔
      { s with fatal := some c,
               eip := s.eip + BitVec.ofNat 32 (Config.faultEipOffset s.freeCount % (n + 1)),
               freeCount := s.freeCount + 1 } = t := by
  unfold raise
  constructor
  · intro h; injection h
  · rintro rfl; rfl

/-- What a raise leaves unchanged (R242), and where `eip` may stand (R243). -/
theorem raise_spec {c : FatalCondition} {n : Nat} {s t : State} (h : raise c n s = .next t) :
    RaisedAndNothingElse c s t ∧ ∃ k, k ≤ n ∧ t.eip = s.eip + BitVec.ofNat 32 k := by
  rw [raise_next_iff] at h
  subst h
  exact ⟨⟨rfl, fun _ _ => rfl, ⟨rfl, rfl⟩, ⟨fun _ => rfl, rfl⟩, rfl, rfl⟩,
    _, Nat.le_of_lt_succ (Nat.mod_lt _ (Nat.succ_pos n)), rfl⟩

/-! ## Operand units and formats -/

theorem withReg_next {o : RegOperand} {n : Nat} {s t : State} {k : Reg → Result} (h : withReg o n s k = .next t) :
    (∃ r, o = .reg r ∧ k r = .next t) ∨ ∃ u, o = .unknown u ∧ raise (.unknownRegister u) n s = .next t := by
  cases o with
  | reg r => exact .inl ⟨r, rfl, h⟩
  | unknown u => exact .inr ⟨u, rfl, h⟩

theorem withSize_next {o : SizeOperand} {n : Nat} {s t : State} {k : Size → Result} (h : withSize o n s k = .next t) :
    (∃ z, o = .size z ∧ k z = .next t) ∨ ∃ u, o = .bad u ∧ raise (.badSize u) n s = .next t := by
  cases o with
  | size z => exact .inl ⟨z, rfl, h⟩
  | bad u => exact .inr ⟨u, rfl, h⟩

/-- The instruction at `s` raised a condition. -/
def Raises (s t : State) : Prop := ∃ c n, raise c n s = .next t

theorem formR_next {ra : RegOperand} {s t : State} {op : Reg → State → Result} (h : formR ra s op = .next t) :
    (∃ a, ra = .reg a ∧ op a (s.advance 8) = .next t) ∨ Raises s t := by
  rcases withReg_next h with h | ⟨u, _, h⟩
  · exact .inl h
  · exact .inr ⟨_, _, h⟩

theorem formRN_next {ra : RegOperand} {s t : State} {op : Reg → State → Result} (h : formRN ra s op = .next t) :
    (∃ a, ra = .reg a ∧ op a (s.advance 12) = .next t) ∨ Raises s t := by
  rcases withReg_next h with h | ⟨u, _, h⟩
  · exact .inl h
  · exact .inr ⟨_, _, h⟩

theorem formRR_next {ra rb : RegOperand} {s t : State} {op : Reg → Reg → State → Result}
    (h : formRR ra rb s op = .next t) :
    (∃ a b, ra = .reg a ∧ rb = .reg b ∧ op a b (s.advance 12) = .next t) ∨ Raises s t := by
  rcases withReg_next h with ⟨a, ha, h⟩ | ⟨u, _, h⟩
  · rcases withReg_next h with ⟨b, hb, h⟩ | ⟨u, _, h⟩
    · exact .inl ⟨a, b, ha, hb, h⟩
    · exact .inr ⟨_, _, h⟩
  · exact .inr ⟨_, _, h⟩

theorem formRM_next {ra rm : RegOperand} {sz : SizeOperand} {s t : State} {op : Reg → Size → Reg → State → Result}
    (h : formRM ra sz rm s op = .next t) :
    (∃ a z m, ra = .reg a ∧ sz = .size z ∧ rm = .reg m ∧ op a z m (s.advance 16) = .next t) ∨ Raises s t := by
  rcases withReg_next h with ⟨a, ha, h⟩ | ⟨u, _, h⟩
  · rcases withSize_next h with ⟨z, hz, h⟩ | ⟨u, _, h⟩
    · rcases withReg_next h with ⟨m, hm, h⟩ | ⟨u, _, h⟩
      · exact .inl ⟨a, z, m, ha, hz, hm, h⟩
      · exact .inr ⟨_, _, h⟩
    · exact .inr ⟨_, _, h⟩
  · exact .inr ⟨_, _, h⟩

theorem formMN_next {rm : RegOperand} {sz : SizeOperand} {s t : State} {op : Size → Reg → State → Result}
    (h : formMN sz rm s op = .next t) :
    (∃ z m, sz = .size z ∧ rm = .reg m ∧ op z m (s.advance 16) = .next t) ∨ Raises s t := by
  rcases withSize_next h with ⟨z, hz, h⟩ | ⟨u, _, h⟩
  · rcases withReg_next h with ⟨m, hm, h⟩ | ⟨u, _, h⟩
    · exact .inl ⟨z, m, hz, hm, h⟩
    · exact .inr ⟨_, _, h⟩
  · exact .inr ⟨_, _, h⟩

theorem formMR_next {rm rb : RegOperand} {sz : SizeOperand} {s t : State} {op : Size → Reg → Reg → State → Result}
    (h : formMR sz rm rb s op = .next t) :
    (∃ z m b, sz = .size z ∧ rm = .reg m ∧ rb = .reg b ∧ op z m b (s.advance 16) = .next t) ∨ Raises s t := by
  rcases withSize_next h with ⟨z, hz, h⟩ | ⟨u, _, h⟩
  · rcases withReg_next h with ⟨m, hm, h⟩ | ⟨u, _, h⟩
    · rcases withReg_next h with ⟨b, hb, h⟩ | ⟨u, _, h⟩
      · exact .inl ⟨z, m, b, hz, hm, hb, h⟩
      · exact .inr ⟨_, _, h⟩
    · exact .inr ⟨_, _, h⟩
  · exact .inr ⟨_, _, h⟩

theorem registerImmediate_next {f : Word → Word → Word} {ra : RegOperand} {imm : Word} {s t : State}
    (h : registerImmediate f ra imm s = .next t) :
    (∃ a, ra = .reg a ∧ (s.advance 12).setReg a (f (s.reg a) imm) = t) ∨ Raises s t := by
  rcases formRN_next h with ⟨a, ha, h⟩ | h
  · exact .inl ⟨a, ha, by injection h⟩
  · exact .inr h

theorem registerRegister_next {f : Word → Word → Word} {ra rb : RegOperand} {s t : State}
    (h : registerRegister f ra rb s = .next t) :
    (∃ a b, ra = .reg a ∧ rb = .reg b ∧ (s.advance 12).setReg a (f (s.reg a) (s.reg b)) = t) ∨ Raises s t := by
  rcases formRR_next h with ⟨a, b, ha, hb, h⟩ | h
  · exact .inl ⟨a, b, ha, hb, by injection h⟩
  · exact .inr h

/-! ## Stack -/

theorem push_some_iff {v : Word} {s t : State} :
    push v s = some t ↔
      4 ≤ (s.reg .esp).toNat ∧
        (s.setReg .esp (s.reg .esp - 4#32)).writeMem .dword (s.reg .esp - 4#32) v = t := by
  unfold push
  split
  next h => simp; omega
  next h => simp; omega

theorem pop_some_iff {v : Word} {s t : State} :
    pop s = some (v, t) ↔
      (s.reg .esp).toNat ≤ 0xFFFFFFFB ∧ s.readMem .dword (s.reg .esp) = v ∧
        s.setReg .esp (s.reg .esp + 4#32) = t := by
  unfold pop
  split
  next h => simp; omega
  next h => simp; omega

theorem pushOrOverflow_next {v : Word} {s t : State} (h : pushOrOverflow v s = .next t) :
    push v (s.advance 8) = some t ∨ Raises s t := by
  unfold pushOrOverflow at h
  split at h
  next => exact .inr ⟨_, _, h⟩
  next u hu => exact .inl (by injection h with h; exact h ▸ hu)

/-! ## Division and the console services -/

theorem divideBy_next {b : Word} {s t : State} (h : divideBy b s = .next t) :
    (b ≠ 0#32 ∧ writeDivision b (s.advance 8) = t) ∨ (b = 0#32 ∧ raise .divideByZero 8 s = .next t) := by
  unfold divideBy at h
  split at h
  next hb => exact .inr ⟨hb, h⟩
  next hb => exact .inl ⟨hb, by injection h⟩

/-- An `int` emits exactly one event or raises. -/
theorem execInt_next {imm : Word} {s t : State} (h : execInt imm s = .next t) :
    (∃ e, (s.advance 8).emit e = t) ∨ Raises s t := by
  unfold execInt int0 int1 int2 at h
  split at h
  next => exact .inl ⟨_, by injection h⟩
  split at h
  next =>
    split at h
    next => exact .inr ⟨_, _, h⟩
    next => exact .inl ⟨_, by injection h⟩
  split at h
  next =>
    split at h
    next => exact absurd h (by simp)
    next => exact .inl ⟨_, by injection h⟩
  next => exact .inr ⟨_, _, h⟩

/-- An unrecognised opcode consumes its unit or raises UnknownOpcode (R192). -/
theorem unrecognisedOpcode_next {p : UnknownOpcodePolicy} {u : Word} {s t : State}
    (h : unrecognisedOpcode p u s = .next t) :
    (p = .nop ∧ s.advance 4 = t) ∨ (p = .fault ∧ raise (.unknownOpcode u) 4 s = .next t) := by
  cases p with
  | fault => exact .inr ⟨rfl, h⟩
  | nop => exact .inl ⟨rfl, by injection h⟩

/-! ## The step -/

/-- A step that answers a next state was taken by a running machine and is the meaning of the fetched instruction, or of
the opcode unit that selects none. -/
theorem step_next {s t : State} (h : step s = .next t) :
    s.runStatus = .running ∧
      ((∃ i, fetchInstr s = .ok i ∧ exec i s = .next t) ∨
        ∃ u, fetchInstr s = .error u ∧ unrecognisedOpcode Config.unknownOpcodePolicy u s = .next t) := by
  unfold step at h
  split at h
  next hr =>
    refine ⟨hr, ?_⟩
    split at h
    next i hi => exact .inl ⟨i, hi, h⟩
    next u hu => exact .inr ⟨u, hu, h⟩
  next => exact absurd h (by simp)
  next => exact absurd h (by simp)

end Sys2Proof.Machine
end

