-- ==== Sys2Proof/Laws/PerInstr.lean ====
section
/-! SUPPORT. The family of statements made of every instruction, one lemma per constructor. -/

namespace Sys2Proof.Laws

/-- The encoding of an instruction has the length of its opcode's format: one opcode unit and its operand units
(30_encoding.md R82, R83). -/
def EncodedLength.Statement (i : Instr) : Prop := (encodeBytes i).length = i.length

/-- The number of bytes of an encoding is four times its number of units (R80). -/
theorem encodeBytes_length (i : Instr) : (encodeBytes i).length = 4 * (1 + i.operands.length) := by
  have h : ∀ us : List Word, (us.flatMap unitBytes).length = 4 * us.length := by
    intro us
    induction us with
    | nil => rfl
    | cons u us ih => rw [List.flatMap_cons, List.length_append, ih, List.length_cons]; simp [unitBytes]; omega
  rw [encodeBytes, h, encode, List.length_cons, List.length_map, Nat.add_comm]

theorem EncodedLength.jmp (imm : Word) : EncodedLength.Statement (.jmp imm) := encodeBytes_length _
theorem EncodedLength.jg (imm : Word) : EncodedLength.Statement (.jg imm) := encodeBytes_length _
theorem EncodedLength.jge (imm : Word) : EncodedLength.Statement (.jge imm) := encodeBytes_length _
theorem EncodedLength.jl (imm : Word) : EncodedLength.Statement (.jl imm) := encodeBytes_length _
theorem EncodedLength.jle (imm : Word) : EncodedLength.Statement (.jle imm) := encodeBytes_length _
theorem EncodedLength.je (imm : Word) : EncodedLength.Statement (.je imm) := encodeBytes_length _
theorem EncodedLength.jne (imm : Word) : EncodedLength.Statement (.jne imm) := encodeBytes_length _
theorem EncodedLength.mrv (ra : RegOperand) (imm : Word) : EncodedLength.Statement (.mrv ra imm) := encodeBytes_length _
theorem EncodedLength.mrvr (ra rb : RegOperand) : EncodedLength.Statement (.mrvr ra rb) := encodeBytes_length _
theorem EncodedLength.mrva (ra : RegOperand) (sz : SizeOperand) (rm : RegOperand) : EncodedLength.Statement (.mrva ra sz rm) := encodeBytes_length _
theorem EncodedLength.mav (sz : SizeOperand) (rm : RegOperand) (imm : Word) : EncodedLength.Statement (.mav sz rm imm) := encodeBytes_length _
theorem EncodedLength.mavr (sz : SizeOperand) (rm rb : RegOperand) : EncodedLength.Statement (.mavr sz rm rb) := encodeBytes_length _
theorem EncodedLength.add (ra : RegOperand) (imm : Word) : EncodedLength.Statement (.add ra imm) := encodeBytes_length _
theorem EncodedLength.addr (ra rb : RegOperand) : EncodedLength.Statement (.addr ra rb) := encodeBytes_length _
theorem EncodedLength.sub (ra : RegOperand) (imm : Word) : EncodedLength.Statement (.sub ra imm) := encodeBytes_length _
theorem EncodedLength.subr (ra rb : RegOperand) : EncodedLength.Statement (.subr ra rb) := encodeBytes_length _
theorem EncodedLength.mul (imm : Word) : EncodedLength.Statement (.mul imm) := encodeBytes_length _
theorem EncodedLength.mulr (ra : RegOperand) : EncodedLength.Statement (.mulr ra) := encodeBytes_length _
theorem EncodedLength.div (imm : Word) : EncodedLength.Statement (.div imm) := encodeBytes_length _
theorem EncodedLength.divr (ra : RegOperand) : EncodedLength.Statement (.divr ra) := encodeBytes_length _
theorem EncodedLength.and (ra : RegOperand) (imm : Word) : EncodedLength.Statement (.and ra imm) := encodeBytes_length _
theorem EncodedLength.andr (ra rb : RegOperand) : EncodedLength.Statement (.andr ra rb) := encodeBytes_length _
theorem EncodedLength.or (ra : RegOperand) (imm : Word) : EncodedLength.Statement (.or ra imm) := encodeBytes_length _
theorem EncodedLength.orr (ra rb : RegOperand) : EncodedLength.Statement (.orr ra rb) := encodeBytes_length _
theorem EncodedLength.xor (ra : RegOperand) (imm : Word) : EncodedLength.Statement (.xor ra imm) := encodeBytes_length _
theorem EncodedLength.xorr (ra rb : RegOperand) : EncodedLength.Statement (.xorr ra rb) := encodeBytes_length _
theorem EncodedLength.neg (ra : RegOperand) : EncodedLength.Statement (.neg ra) := encodeBytes_length _
theorem EncodedLength.psh (imm : Word) : EncodedLength.Statement (.psh imm) := encodeBytes_length _
theorem EncodedLength.pshr (ra : RegOperand) : EncodedLength.Statement (.pshr ra) := encodeBytes_length _
theorem EncodedLength.pop (ra : RegOperand) : EncodedLength.Statement (.pop ra) := encodeBytes_length _
theorem EncodedLength.call (imm : Word) : EncodedLength.Statement (.call imm) := encodeBytes_length _
theorem EncodedLength.ret : EncodedLength.Statement .ret := encodeBytes_length _
theorem EncodedLength.cmp (ra : RegOperand) (imm : Word) : EncodedLength.Statement (.cmp ra imm) := encodeBytes_length _
theorem EncodedLength.cmpr (ra rb : RegOperand) : EncodedLength.Statement (.cmpr ra rb) := encodeBytes_length _
theorem EncodedLength.cmpa (ra : RegOperand) (sz : SizeOperand) (rm : RegOperand) : EncodedLength.Statement (.cmpa ra sz rm) := encodeBytes_length _
theorem EncodedLength.shr (ra : RegOperand) (imm : Word) : EncodedLength.Statement (.shr ra imm) := encodeBytes_length _
theorem EncodedLength.shrr (ra rb : RegOperand) : EncodedLength.Statement (.shrr ra rb) := encodeBytes_length _
theorem EncodedLength.shl (ra : RegOperand) (imm : Word) : EncodedLength.Statement (.shl ra imm) := encodeBytes_length _
theorem EncodedLength.shlr (ra rb : RegOperand) : EncodedLength.Statement (.shlr ra rb) := encodeBytes_length _
theorem EncodedLength.int (imm : Word) : EncodedLength.Statement (.int imm) := encodeBytes_length _
theorem EncodedLength.hlt : EncodedLength.Statement .hlt := encodeBytes_length _
theorem EncodedLength.nop : EncodedLength.Statement .nop := encodeBytes_length _

end Sys2Proof.Laws
end

