-- ==== Sys2Proof/Tests/Slice0.lean ====
section
/-! SUPPORT. The model's own tests: the refusals of WellFormed, the decoding of a word of every instruction written out from
30_encoding.md R86, R88 and R90, single steps with the values of 95_test_vectors.md, and for each obligation with hypotheses
a state and operands that meet them. -/

open Sys2Proof Sys2Proof.Machine

namespace Sys2Proof.Tests

/-! ## Helpers -/

/-- A list of byte values. -/
def bytes (ns : List Nat) : List Byte := ns.map (BitVec.ofNat 8)

/-- The bytes decode to this instruction and nothing is left. -/
def decodesTo (ns : List Nat) (i : Instr) : Bool :=
  match decode (bytes ns) with
  | .ok (j, rest) => j == i && rest == [] && encodeBytes i == bytes ns
  | .error _ => false

/-- The bytes are rejected with this reason. -/
def rejects (ns : List Nat) (e : Reject) : Bool :=
  match decode (bytes ns) with
  | .ok _ => false
  | .error d => d == e

/-- The outcome is a next state of which `p` holds. -/
def after (r : Result) (p : State → Bool) : Bool :=
  match r with
  | .next t => p t
  | .fault _ => false
  | .refused _ => false

/-- The power-on state with registers set. -/
def withRegs (rs : List (Reg × Nat)) : State := rs.foldl (fun s r => s.setReg r.1 (BitVec.ofNat 32 r.2)) State.reset

/-- The state with bytes written from `a` upward. -/
def poke (s : State) (a : Nat) (ns : List Nat) : State := s.writeBytes (BitVec.ofNat 32 a) (bytes ns)

/-- The bytes from `a` upward. -/
def peek (s : State) (a n : Nat) : List Byte := s.readBytes (BitVec.ofNat 32 a) n

/-- The power-on state with an instruction laid at `eip`. -/
def placed (s : State) (i : Instr) : State := s.writeBytes s.eip (encodeBytes i)

/-- The registers but those listed, the flags and the memory are as in `s`. -/
def sameBut (rs : List Reg) (s t : State) : Bool :=
  Reg.all.all (fun r => rs.contains r || t.reg r == s.reg r) && t.cmpf == s.cmpf && t.cf == s.cf && t.mem == s.mem

/-- The outcome raises `c` and changes no register, flag or memory byte. -/
def raisesOnly (c : FatalCondition) (s : State) (r : Result) : Bool :=
  after r fun t => t.fatal == some c && sameBut [] s t && t.console == s.console

/-- Assembly gives these bytes. -/
def assemblesTo (ss : List Stmt) (ns : List Nat) : Bool :=
  match assemble ss with
  | .ok bs => bs == bytes ns
  | .error _ => false

/-- Assembly fails with this kind. -/
def failsWith (ss : List Stmt) (e : AssemblyError) : Bool :=
  match assemble ss with
  | .ok _ => false
  | .error d => d == e

/-! ## WellFormed: each check refuses an ill-formed term -/

theorem test_wellFormed_unknown_must_spell_no_register : Instr.wellFormed (.mrv (.unknown 0x65617820#32) 0#32) = false := by decide
theorem test_wellFormed_second_register_is_checked : Instr.wellFormed (.mrvr (.reg .eax) (.unknown 0x65737020#32)) = false := by decide
theorem test_wellFormed_bad_must_name_no_size : Instr.wellFormed (.mav (.bad 2#32) (.reg .eax) 0#32) = false := by decide
theorem test_wellFormed_address_register_is_checked :
    Instr.wellFormed (.cmpa (.reg .eax) (.size .byte) (.unknown 0x65736920#32)) = false := by decide
theorem test_wellFormed_accepts_units_that_raise :
    Instr.wellFormed (.mrva (.unknown 0x65697020#32) (.bad 3#32) (.reg .esi)) = true := by decide

/-! ## Decoding: a word of every instruction, written out from R82, R86, R88 and R90, and its encoding back -/

theorem test_decode_jmp :
    decodesTo [0x6A, 0x6D, 0x70, 0x20, 0x80, 0x01, 0xF0, 0x7C] (.jmp 0x8001F07C#32) = true := by rfl
theorem test_decode_jg :
    decodesTo [0x6A, 0x67, 0x20, 0x20, 0x81, 0x25, 0x35, 0xE3] (.jg 0x812535E3#32) = true := by rfl
theorem test_decode_jge :
    decodesTo [0x6A, 0x67, 0x65, 0x20, 0x82, 0x48, 0x7B, 0x4A] (.jge 0x82487B4A#32) = true := by rfl
theorem test_decode_jl :
    decodesTo [0x6A, 0x6C, 0x20, 0x20, 0x83, 0x6B, 0xC0, 0xB1] (.jl 0x836BC0B1#32) = true := by rfl
theorem test_decode_jle :
    decodesTo [0x6A, 0x6C, 0x65, 0x20, 0x84, 0x8F, 0x06, 0x18] (.jle 0x848F0618#32) = true := by rfl
theorem test_decode_je :
    decodesTo [0x6A, 0x65, 0x20, 0x20, 0x85, 0xB2, 0x4B, 0x7F] (.je 0x85B24B7F#32) = true := by rfl
theorem test_decode_jne :
    decodesTo [0x6A, 0x6E, 0x65, 0x20, 0x86, 0xD5, 0x90, 0xE6] (.jne 0x86D590E6#32) = true := by rfl
theorem test_decode_mrv :
    decodesTo [0x6D, 0x72, 0x76, 0x20, 0x65, 0x73, 0x70, 0x20, 0x87, 0xF8, 0xD6, 0x4D] (.mrv (.reg .esp) 0x87F8D64D#32) = true := by rfl
theorem test_decode_mrvr :
    decodesTo [0x6D, 0x72, 0x76, 0x72, 0x65, 0x61, 0x78, 0x20, 0x65, 0x62, 0x78, 0x20] (.mrvr (.reg .eax) (.reg .ebx)) = true := by rfl
theorem test_decode_mrva :
    decodesTo [0x6D, 0x72, 0x76, 0x61, 0x65, 0x62, 0x78, 0x20, 0x00, 0x00, 0x00, 0x00, 0x65, 0x73, 0x69, 0x20] (.mrva (.reg .ebx) (.size .byte) (.reg .esi)) = true := by rfl
theorem test_decode_mav :
    decodesTo [0x6D, 0x61, 0x76, 0x20, 0x00, 0x00, 0x00, 0x01, 0x65, 0x63, 0x78, 0x20, 0x8B, 0x62, 0xA6, 0x82] (.mav (.size .word) (.reg .ecx) 0x8B62A682#32) = true := by rfl
theorem test_decode_mavr :
    decodesTo [0x6D, 0x61, 0x76, 0x72, 0x00, 0x00, 0x00, 0x02, 0x65, 0x64, 0x78, 0x20, 0x65, 0x63, 0x78, 0x20] (.mavr (.size .dword) (.reg .edx) (.reg .ecx)) = true := by rfl
theorem test_decode_add :
    decodesTo [0x61, 0x64, 0x64, 0x20, 0x65, 0x73, 0x69, 0x20, 0x8D, 0xA9, 0x31, 0x50] (.add (.reg .esi) 0x8DA93150#32) = true := by rfl
theorem test_decode_addr :
    decodesTo [0x61, 0x64, 0x64, 0x72, 0x65, 0x64, 0x69, 0x20, 0x65, 0x61, 0x78, 0x20] (.addr (.reg .edi) (.reg .eax)) = true := by rfl
theorem test_decode_sub :
    decodesTo [0x73, 0x75, 0x62, 0x20, 0x65, 0x62, 0x70, 0x20, 0x8F, 0xEF, 0xBC, 0x1E] (.sub (.reg .ebp) 0x8FEFBC1E#32) = true := by rfl
theorem test_decode_subr :
    decodesTo [0x73, 0x75, 0x62, 0x72, 0x65, 0x73, 0x70, 0x20, 0x65, 0x62, 0x70, 0x20] (.subr (.reg .esp) (.reg .ebp)) = true := by rfl
theorem test_decode_mul :
    decodesTo [0x6D, 0x75, 0x6C, 0x20, 0x92, 0x36, 0x46, 0xEC] (.mul 0x923646EC#32) = true := by rfl
theorem test_decode_mulr :
    decodesTo [0x6D, 0x75, 0x6C, 0x72, 0x65, 0x62, 0x78, 0x20] (.mulr (.reg .ebx)) = true := by rfl
theorem test_decode_div :
    decodesTo [0x64, 0x69, 0x76, 0x20, 0x94, 0x7C, 0xD1, 0xBA] (.div 0x947CD1BA#32) = true := by rfl
theorem test_decode_divr :
    decodesTo [0x64, 0x69, 0x76, 0x72, 0x65, 0x64, 0x78, 0x20] (.divr (.reg .edx)) = true := by rfl
theorem test_decode_and :
    decodesTo [0x61, 0x6E, 0x64, 0x20, 0x65, 0x73, 0x69, 0x20, 0x96, 0xC3, 0x5C, 0x88] (.and (.reg .esi) 0x96C35C88#32) = true := by rfl
theorem test_decode_andr :
    decodesTo [0x61, 0x6E, 0x64, 0x72, 0x65, 0x64, 0x69, 0x20, 0x65, 0x61, 0x78, 0x20] (.andr (.reg .edi) (.reg .eax)) = true := by rfl
theorem test_decode_or :
    decodesTo [0x6F, 0x72, 0x20, 0x20, 0x65, 0x62, 0x70, 0x20, 0x99, 0x09, 0xE7, 0x56] (.or (.reg .ebp) 0x9909E756#32) = true := by rfl
theorem test_decode_orr :
    decodesTo [0x6F, 0x72, 0x72, 0x20, 0x65, 0x73, 0x70, 0x20, 0x65, 0x62, 0x70, 0x20] (.orr (.reg .esp) (.reg .ebp)) = true := by rfl
theorem test_decode_xor :
    decodesTo [0x78, 0x6F, 0x72, 0x20, 0x65, 0x61, 0x78, 0x20, 0x9B, 0x50, 0x72, 0x24] (.xor (.reg .eax) 0x9B507224#32) = true := by rfl
theorem test_decode_xorr :
    decodesTo [0x78, 0x6F, 0x72, 0x72, 0x65, 0x62, 0x78, 0x20, 0x65, 0x73, 0x69, 0x20] (.xorr (.reg .ebx) (.reg .esi)) = true := by rfl
theorem test_decode_neg :
    decodesTo [0x6E, 0x65, 0x67, 0x20, 0x65, 0x63, 0x78, 0x20] (.neg (.reg .ecx)) = true := by rfl
theorem test_decode_psh :
    decodesTo [0x70, 0x73, 0x68, 0x20, 0x9E, 0xBA, 0x42, 0x59] (.psh 0x9EBA4259#32) = true := by rfl
theorem test_decode_pshr :
    decodesTo [0x70, 0x73, 0x68, 0x72, 0x65, 0x73, 0x69, 0x20] (.pshr (.reg .esi)) = true := by rfl
theorem test_decode_pop :
    decodesTo [0x70, 0x6F, 0x70, 0x20, 0x65, 0x64, 0x69, 0x20] (.pop (.reg .edi)) = true := by rfl
theorem test_decode_call :
    decodesTo [0x63, 0x61, 0x6C, 0x6C, 0xA2, 0x24, 0x12, 0x8E] (.call 0xA224128E#32) = true := by rfl
theorem test_decode_ret :
    decodesTo [0x72, 0x65, 0x74, 0x20] (.ret) = true := by rfl
theorem test_decode_cmp :
    decodesTo [0x63, 0x6D, 0x70, 0x20, 0x65, 0x61, 0x78, 0x20, 0xA4, 0x6A, 0x9D, 0x5C] (.cmp (.reg .eax) 0xA46A9D5C#32) = true := by rfl
theorem test_decode_cmpr :
    decodesTo [0x63, 0x6D, 0x70, 0x72, 0x65, 0x62, 0x78, 0x20, 0x65, 0x73, 0x69, 0x20] (.cmpr (.reg .ebx) (.reg .esi)) = true := by rfl
theorem test_decode_cmpa :
    decodesTo [0x63, 0x6D, 0x70, 0x61, 0x65, 0x63, 0x78, 0x20, 0x00, 0x00, 0x00, 0x01, 0x65, 0x73, 0x70, 0x20] (.cmpa (.reg .ecx) (.size .word) (.reg .esp)) = true := by rfl
theorem test_decode_shr :
    decodesTo [0x73, 0x68, 0x72, 0x20, 0x65, 0x64, 0x78, 0x20, 0xA7, 0xD4, 0x6D, 0x91] (.shr (.reg .edx) 0xA7D46D91#32) = true := by rfl
theorem test_decode_shrr :
    decodesTo [0x73, 0x68, 0x72, 0x72, 0x65, 0x73, 0x69, 0x20, 0x65, 0x64, 0x69, 0x20] (.shrr (.reg .esi) (.reg .edi)) = true := by rfl
theorem test_decode_shl :
    decodesTo [0x73, 0x68, 0x6C, 0x20, 0x65, 0x64, 0x69, 0x20, 0xAA, 0x1A, 0xF8, 0x5F] (.shl (.reg .edi) 0xAA1AF85F#32) = true := by rfl
theorem test_decode_shlr :
    decodesTo [0x73, 0x68, 0x6C, 0x72, 0x65, 0x62, 0x70, 0x20, 0x65, 0x64, 0x78, 0x20] (.shlr (.reg .ebp) (.reg .edx)) = true := by rfl
theorem test_decode_int :
    decodesTo [0x69, 0x6E, 0x74, 0x20, 0xAC, 0x61, 0x83, 0x2D] (.int 0xAC61832D#32) = true := by rfl
theorem test_decode_hlt :
    decodesTo [0x68, 0x6C, 0x74, 0x20] (.hlt) = true := by rfl
theorem test_decode_nop :
    decodesTo [0x6E, 0x6F, 0x70, 0x20] (.nop) = true := by rfl

/-- 95_test_vectors.md 2.1: NUL is not padding, upper case, a leading space, and unwritten memory select nothing. -/
theorem test_decode_rejects_other_units :
    (rejects [0x6A, 0x6D, 0x70, 0x00] (.unknownOpcode 0x6A6D7000#32) && rejects [0x4A, 0x4D, 0x50, 0x20] (.unknownOpcode 0x4A4D5020#32) &&
      rejects [0x20, 0x6A, 0x6D, 0x70] (.unknownOpcode 0x206A6D70#32) && rejects [0, 0, 0, 0] (.unknownOpcode 0#32)) = true := by rfl
theorem test_decode_rejects_truncated :
    (rejects [] .truncated && rejects [0x68, 0x6C, 0x74] .truncated && rejects [0x6A, 0x6D, 0x70, 0x20, 0, 0, 0] .truncated) = true := by rfl
/-- 95_test_vectors.md 2.1: `eip` and a NUL-padded name spell no register, and size code 3 names no size. -/
theorem test_decode_keeps_bad_operands :
    (decodesTo [0x6E, 0x65, 0x67, 0x20, 0x65, 0x69, 0x70, 0x20] (.neg (.unknown 0x65697020#32)) &&
      decodesTo [0x70, 0x6F, 0x70, 0x20, 0x65, 0x61, 0x78, 0x00] (.pop (.unknown 0x65617800#32)) &&
        decodesTo [0x6D, 0x61, 0x76, 0x20, 0, 0, 0, 3, 0x65, 0x73, 0x70, 0x20, 0, 0, 0, 9] (.mav (.bad 3#32) (.reg .esp) 9#32)) = true := by rfl
/-- The opcode table's numbering: bit 0 is the least significant bit of the first unit. -/
theorem test_decodeTableWord_jmp : decodeTableWord 64 0x8000000C6A6D7020 = some (.jmp 0x8000000C#32) := by rfl
theorem test_decodeTableWord_zero_operands :
    decodeTableWord 32 0x6D617672 = some (.mavr (.size .byte) (.unknown 0#32) (.unknown 0#32)) := by rfl

/-! ## Single steps, values of 95_test_vectors.md -/

/-- S1: no carry clears `cf`; 2.4: a carry sets it. -/
theorem test_add_clears_carry :
    after (exec (.add (.reg .eax) 7#32) ((withRegs [(.eax, 5)]).setCf true)) (fun t => t.reg .eax == 0xC#32 && !t.cf) = true := by rfl
theorem test_add_wraps :
    after (exec (.add (.reg .eax) 2#32) (withRegs [(.eax, 0xFFFFFFFF)])) (fun t => t.reg .eax == 1#32 && t.cf) = true := by rfl
theorem test_addr_same_register :
    after (exec (.addr (.reg .eax) (.reg .eax)) (withRegs [(.eax, 0x80000000)])) (fun t => t.reg .eax == 0#32 && t.cf) = true := by rfl
/-- S2 and 2.4: `sub` floors at zero and keeps `cf`. -/
theorem test_sub_floors_at_zero :
    after (exec (.sub (.reg .ebx) 5#32) ((withRegs [(.ebx, 3)]).setCf true)) (fun t => t.reg .ebx == 0#32 && t.cf) = true := by rfl
theorem test_subr_order :
    after (exec (.subr (.reg .ebx) (.reg .ecx)) (withRegs [(.ebx, 9), (.ecx, 4)])) (fun t => t.reg .ebx == 5#32 && t.reg .ecx == 4#32) = true := by rfl
/-- S3 and 2.4. -/
theorem test_mul_overflow :
    after (exec (.mul 2#32) (withRegs [(.eax, 0xFFFFFFFF), (.edx, 77)])) (fun t => t.reg .eax == 0xFFFFFFFE#32 && t.cf && t.reg .edx == 77#32) = true := by rfl
theorem test_mulr_largest_product :
    after (exec (.mulr (.reg .ecx)) (withRegs [(.eax, 0xFFFF), (.ecx, 0x10001)])) (fun t => t.reg .eax == 0xFFFFFFFF#32 && !t.cf) = true := by rfl
/-- S4 and 2.4. -/
theorem test_div : after (exec (.div 5#32) (withRegs [(.eax, 0x1F)])) (fun t => t.reg .eax == 6#32 && t.reg .edx == 1#32) = true := by rfl
theorem test_div_zero : (let s := withRegs [(.eax, 9), (.edx, 3)]; raisesOnly .divideByZero s (exec (.div 0#32) s)) = true := by rfl
theorem test_divr_reads_divisor_first :
    after (exec (.divr (.reg .edx)) (withRegs [(.eax, 100), (.edx, 7)])) (fun t => t.reg .eax == 14#32 && t.reg .edx == 2#32) = true := by rfl
theorem test_divr_by_eax :
    after (exec (.divr (.reg .eax)) (withRegs [(.eax, 12)])) (fun t => t.reg .eax == 1#32 && t.reg .edx == 0#32) = true := by rfl
/-- 2.5. -/
theorem test_and : after (exec (.and (.reg .eax) 0x0FF000FF#32) (withRegs [(.eax, 0xF0F0F0F0)])) (fun t => t.reg .eax == 0x00F000F0#32) = true := by rfl
theorem test_andr : after (exec (.andr (.reg .eax) (.reg .ebx)) (withRegs [(.eax, 0x12345678)])) (fun t => t.reg .eax == 0#32) = true := by rfl
theorem test_or : after (exec (.or (.reg .eax) 1#32) (withRegs [(.eax, 0x80000000)])) (fun t => t.reg .eax == 0x80000001#32) = true := by rfl
theorem test_orr :
    after (exec (.orr (.reg .eax) (.reg .ebx)) (withRegs [(.eax, 0x0F0F0F0F), (.ebx, 0xF0F0F0F0)])) (fun t => t.reg .eax == 0xFFFFFFFF#32) = true := by rfl
theorem test_xor : after (exec (.xor (.reg .eax) 0xFFFFFFFF#32) (withRegs [(.eax, 0xAAAAAAAA)])) (fun t => t.reg .eax == 0x55555555#32) = true := by rfl
theorem test_xorr_same_register :
    after (exec (.xorr (.reg .edi) (.reg .edi)) (withRegs [(.edi, 0xAAAAAAAA)])) (fun t => t.reg .edi == 0#32) = true := by rfl
/-- S10. -/
theorem test_neg : after (exec (.neg (.reg .eax)) (withRegs [(.eax, 0xFE)])) (fun t => t.reg .eax == 0xFFFFFF01#32) = true := by rfl

/-- 2.2: which jumps are taken for each value of the compare flag. -/
theorem test_jumps_taken :
    (List.map (fun c => List.map (fun i => after (exec i (State.reset.setCmpf c)) (fun t => t.eip == 0x80000040#32))
        [.jmp 0x80000040#32, .jg 0x80000040#32, .jge 0x80000040#32, .jl 0x80000040#32, .jle 0x80000040#32, .je 0x80000040#32, .jne 0x80000040#32])
      [CompareFlag.greater, .equal, .less]) =
      [[true, true, true, false, false, false, true], [true, false, true, false, true, true, false],
        [true, false, false, true, true, false, true]] := by rfl
theorem test_jump_untaken : after (exec (.jl 0x80000040#32) State.reset) (fun t => t.eip == 0x80000008#32 && sameBut [] State.reset t) = true := by rfl

/-- 2.3. -/
theorem test_mrv_esp : after (exec (.mrv (.reg .esp) 0x1000#32) State.reset) (fun t => t.reg .esp == 0x1000#32 && t.eip == 0x8000000C#32) = true := by rfl
theorem test_mrvr :
    after (exec (.mrvr (.reg .eax) (.reg .ecx)) (withRegs [(.ecx, 0xFFFFFFFF)])) (fun t => t.reg .eax == 0xFFFFFFFF#32 && t.reg .ecx == 0xFFFFFFFF#32) = true := by rfl
theorem test_mrva_zero_extends :
    after (exec (.mrva (.reg .eax) (.size .byte) (.reg .esi)) (poke (withRegs [(.esi, 0x1000), (.eax, 0xFFFFFFFF)]) 0x1000 [0x80, 0xFF, 0, 1]))
      (fun t => t.reg .eax == 0x80#32 && t.eip == 0x80000010#32) = true := by rfl
theorem test_mrva_into_its_address_register :
    after (exec (.mrva (.reg .esi) (.size .word) (.reg .esi)) (poke (withRegs [(.esi, 0x1000)]) 0x1000 [0x80, 0xFF, 0, 1]))
      (fun t => t.reg .esi == 0x80FF#32) = true := by rfl
theorem test_mav_truncates :
    after (exec (.mav (.size .word) (.reg .edi) 0x11223344#32) (withRegs [(.edi, 0x2000)])) (fun t => peek t 0x1FFF 4 == bytes [0, 0x33, 0x44, 0]) = true := by rfl
theorem test_mav_bad_size : (let s := withRegs [(.edi, 0x2000)]; raisesOnly (.badSize 7#32) s (exec (.mav (.bad 7#32) (.reg .edi) 1#32) s)) = true := by rfl
theorem test_mavr_wraps :
    after (exec (.mavr (.size .dword) (.reg .ebx) (.reg .ecx)) (withRegs [(.ebx, 0xFFFFFFFE), (.ecx, 0x11223344)]))
      (fun t => peek t 0xFFFFFFFE 4 == bytes [0x11, 0x22, 0x33, 0x44] && peek t 0 2 == bytes [0x33, 0x44]) = true := by rfl

/-- 2.6. -/
theorem test_psh : after (exec (.psh 7#32) State.reset) (fun t => t.reg .esp == 0xFFFFFFFB#32 && peek t 0xFFFFFFFB 4 == bytes [0, 0, 0, 7]) = true := by rfl
theorem test_psh_overflow : (let s := withRegs [(.esp, 3)]; raisesOnly .stackOverflow s (exec (.psh 0xAABBCCDD#32) s)) = true := by rfl
theorem test_pshr_esp_pushes_old_value :
    after (exec (.pshr (.reg .esp)) State.reset) (fun t => t.reg .esp == 0xFFFFFFFB#32 && peek t 0xFFFFFFFB 4 == bytes [0xFF, 0xFF, 0xFF, 0xFF]) = true := by rfl
/-- R244: a bad register unit is reported before the stack check. -/
theorem test_pshr_bad_register_comes_first :
    (let s := withRegs [(.esp, 0)]; raisesOnly (.unknownRegister 0x65697020#32) s (exec (.pshr (.unknown 0x65697020#32)) s)) = true := by rfl
theorem test_pop_esp :
    after (exec (.pop (.reg .esp)) (poke (withRegs [(.esp, 0xFFFFFFFB)]) 0xFFFFFFFB [0, 0, 0x10, 0])) (fun t => t.reg .esp == 0x1000#32) = true := by rfl
theorem test_pop_underflow : (let s := withRegs [(.esp, 0xFFFFFFFC)]; raisesOnly .stackUnderflow s (exec (.pop (.reg .eax)) s)) = true := by rfl
theorem test_call :
    after (exec (.call 0x80000020#32) State.reset)
      (fun t => t.eip == 0x80000020#32 && t.reg .esp == 0xFFFFFFFB#32 && peek t 0xFFFFFFFB 4 == bytes [0x80, 0, 0, 8]) = true := by rfl
theorem test_call_overflow : (let s := withRegs [(.esp, 2)]; raisesOnly .stackOverflow s (exec (.call 0x80000020#32) s)) = true := by rfl
theorem test_ret :
    after (exec .ret (poke (withRegs [(.esp, 0xFFFFFFFB)]) 0xFFFFFFFB [0x80, 0, 0, 8])) (fun t => t.eip == 0x80000008#32 && t.reg .esp == 0xFFFFFFFF#32) = true := by rfl
theorem test_ret_underflow : raisesOnly .stackUnderflow State.reset (exec .ret State.reset) = true := by rfl

/-- S7 and 2.7. -/
theorem test_cmp_unsigned :
    after (exec (.cmp (.reg .eax) 0x7FFFFFFF#32) (withRegs [(.eax, 0x80000000)])) (fun t => t.cmpf == .greater && t.cf == false) = true := by rfl
theorem test_cmpr_less : after (exec (.cmpr (.reg .eax) (.reg .ebx)) (withRegs [(.eax, 4), (.ebx, 5)])) (fun t => t.cmpf == .less) = true := by rfl
theorem test_cmpa_word_equal :
    after (exec (.cmpa (.reg .eax) (.size .word) (.reg .esi)) (poke ((withRegs [(.eax, 0x1234), (.esi, 0x2000)]).setCmpf .less) 0x2000 [0x12, 0x34]))
      (fun t => t.cmpf == .equal) = true := by rfl
theorem test_cmpa_compares_whole_register :
    after (exec (.cmpa (.reg .eax) (.size .byte) (.reg .esi)) (poke (withRegs [(.eax, 0x100), (.esi, 0x2000)]) 0x2000 [0xFF]))
      (fun t => t.cmpf == .greater) = true := by rfl
theorem test_shl : after (exec (.shl (.reg .eax) 1#32) (withRegs [(.eax, 0xC0000001)])) (fun t => t.reg .eax == 0x80000002#32) = true := by rfl
theorem test_shlr : after (exec (.shlr (.reg .eax) (.reg .ebx)) (withRegs [(.eax, 1), (.ebx, 31)])) (fun t => t.reg .eax == 0x80000000#32) = true := by rfl
theorem test_shr : after (exec (.shr (.reg .eax) 4#32) (withRegs [(.eax, 0xFFFFFFFF)])) (fun t => t.reg .eax == 0x0FFFFFFF#32) = true := by rfl
theorem test_shrr_by_itself : after (exec (.shrr (.reg .ecx) (.reg .ecx)) (withRegs [(.ecx, 4)])) (fun t => t.reg .ecx == 0#32) = true := by rfl
/-- 2.7: counts of 32 and more under each value of SHIFT_GE32. -/
theorem test_shift_by_32_or_more :
    [shiftLeft .zero 1#32 32#32, shiftLeft .mod32 1#32 32#32, shiftRight .zero 0x80000000#32 33#32, shiftRight .mod32 0x80000000#32 33#32] =
      [0#32, 1#32, 0#32, 0x40000000#32] := by rfl

/-- 2.8. -/
theorem test_int_services :
    (after (exec (.int 0#32) State.reset)
        (fun t => t.console == [.dump { regs := Regs.reset, eip := 0x80000008#32, cmpf := .equal, cf := false }] && sameBut [] State.reset t) &&
      after (exec (.int 1#32) (poke (withRegs [(.esi, 0x1000), (.eax, 3), (.edx, 1)]) 0x1000 [0, 1, 0, 2, 1, 0]))
        (fun t => t.console == [.list [1#32, 2#32, 256#32]]) &&
        after (exec (.int 2#32) (poke (withRegs [(.esi, 0x3000)]) 0x3000 [0x48, 0x69, 0]))
          (fun t => t.console == [.text (bytes [0x48, 0x69])])) = true := by rfl
theorem test_int_raises :
    (raisesOnly (.unknownInterrupt 255#32) State.reset (exec (.int 255#32) State.reset) &&
      (let s := withRegs [(.eax, 0), (.edx, 3)]; raisesOnly (.badSize 3#32) s (exec (.int 1#32) s))) = true := by rfl
theorem test_hlt : after (exec .hlt State.reset) (fun t => t.halted && t.eip == 0x80000004#32) = true := by rfl
theorem test_nop : after (exec .nop State.reset) (fun t => t.eip == 0x80000004#32 && sameBut [] State.reset t && !t.halted) = true := by rfl
/-- R187, R188: the rendered texts `1 2 256` and `Hi`. -/
theorem test_render :
    ((ConsoleEvent.list [1#32, 2#32, 256#32]).render, (ConsoleEvent.text (bytes [0x48, 0x69])).render) =
      (['1', ' ', '2', ' ', '2', '5', '6'], ['H', 'i']) := by rfl
/-- R192, under each value of UNKNOWN_OPCODE_POLICY. -/
theorem test_unrecognised_fault : raisesOnly (.unknownOpcode 0#32) State.reset (unrecognisedOpcode .fault 0#32 State.reset) = true := by rfl
theorem test_unrecognised_nop :
    after (unrecognisedOpcode .nop 0#32 State.reset) (fun t => t.eip == 0x80000004#32 && t.fatal == none && sameBut [] State.reset t) = true := by rfl

/-! ## Memory controller (2.9) -/

/-- The chunks after the seven writes of 2.9. -/
def chunkVector : State :=
  [(0x1000, 0xAA), (0x1000, 0xAB), (0x0FFF, 0x01), (0x1001, 0x02), (0x0F00, 0x03), (0x0E00, 0x04), (0x0F80, 0x05)].foldl
    (fun s w => s.writeByte (BitVec.ofNat 32 w.1) (BitVec.ofNat 8 w.2)) State.reset

theorem test_chunks_grow_and_appear :
    chunkVector.chunks = [{ base := 0x0E00, len := 1 }, { base := 0x0F00, len := 257 }, { base := 0x1001, len := 1 }] := by rfl
theorem test_chunk_bytes : (peek chunkVector 0x0FFE 4, peek chunkVector 0x0F80 1, peek chunkVector 0x0F00 2) =
    (bytes [0, 0x01, 0xAB, 0x02], bytes [0x05], bytes [0x03, 0]) := by rfl
/-- The tie-break of D21. -/
theorem test_chunk_nearest_is_grown :
    touchChunk 0x1FC0 [{ base := 0x2000, len := 1 }, { base := 0x2080, len := 1 }] = [{ base := 0x1FC0, len := 0x41 }, { base := 0x2080, len := 1 }] := by rfl

/-- A load over the top of the address space is one chunk; a write at its wrapped end is a hit, and one before its base grows it. -/
theorem test_chunk_wraps :
    (let s := State.reset.loadAt 0xFFFFFFFE#32 (bytes [1, 2, 3, 4])
     (s.storedChunks, ((s.writeByte 1#32 9#8).writeByte 0xFFFFFFFC#32 7#8).storedChunks)) =
      ([{ base := 0xFFFFFFFE, bytes := bytes [1, 2, 3, 4] }], [{ base := 0xFFFFFFFC, bytes := bytes [7, 0, 1, 2, 3, 9] }]) := by rfl

/-! ## The step and the host -/

/-- A program of two instructions laid at ORIGIN runs its first instruction in the very next step (P1). -/
theorem test_step_runs_placed_word :
    after (step (State.reset.withFetchWord 96 0xFFFFFFFF656178206D727620)) (fun t => t.reg .eax == 0xFFFFFFFF#32 && t.eip == 0x8000000C#32) = true := by rfl
theorem test_load_is_one_chunk :
    ((State.reset.load (bytes [0x68, 0x6C, 0x74, 0x20])).map (fun t => (t.chunks, t.readMem .dword 0x80000000#32))) =
      some ([{ base := 0x80000000, len := 4 }], 0x686C7420#32) := by rfl
theorem test_register_reset_keeps_memory :
    (let s := (poke (withRegs [(.eax, 9)]) 0x10 [5]).halt; (s.registerReset.mem, s.registerReset.regs, s.registerReset.halted)) =
      ([(0x10, 5#8)], Regs.reset, false) := by rfl

/-! ## The assembler (R227, 2.10) -/

/-- R227. -/
theorem test_asm_relative_jump :
    assemblesTo [.jump .jmp (.rel .plus 12), .nop, .nop, .nop, .hlt]
      [0x6A, 0x6D, 0x70, 0x20, 0x80, 0x00, 0x00, 0x0C, 0x6E, 0x6F, 0x70, 0x20, 0x6E, 0x6F, 0x70, 0x20, 0x6E, 0x6F, 0x70, 0x20, 0x68, 0x6C, 0x74, 0x20] = true := by rfl
theorem test_asm_label_jump :
    assemblesTo [.jump .jmp (.label "L"), .nop, .labelDef "L", .nop, .nop, .hlt]
      [0x6A, 0x6D, 0x70, 0x20, 0x80, 0x00, 0x00, 0x0C, 0x6E, 0x6F, 0x70, 0x20, 0x6E, 0x6F, 0x70, 0x20, 0x6E, 0x6F, 0x70, 0x20, 0x68, 0x6C, 0x74, 0x20] = true := by rfl
theorem test_asm_backward_jump :
    assemblesTo [.jump .jmp (.rel .minus 8)]
      [0x6A, 0x6D, 0x70, 0x20, 0x7F, 0xFF, 0xFF, 0xF8] = true := by rfl
theorem test_asm_displaced_store :
    assemblesTo [.move (.addrDisp .dword .ebx .minus 8) (.reg .ecx)]
      [0x70, 0x73, 0x68, 0x72, 0x65, 0x62, 0x78, 0x20, 0x73, 0x75, 0x62, 0x20, 0x65, 0x62, 0x78, 0x20, 0x00, 0x00, 0x00, 0x08, 0x6D, 0x61, 0x76, 0x72, 0x00, 0x00, 0x00, 0x02, 0x65, 0x62, 0x78, 0x20, 0x65, 0x63, 0x78, 0x20, 0x70, 0x6F, 0x70, 0x20, 0x65, 0x62, 0x78, 0x20] = true := by rfl
theorem test_asm_displaced_immediate_store :
    assemblesTo [.move (.addrDisp .byte .edi .plus 1) (.num 0x69)]
      [0x70, 0x73, 0x68, 0x72, 0x65, 0x64, 0x69, 0x20, 0x61, 0x64, 0x64, 0x20, 0x65, 0x64, 0x69, 0x20, 0x00, 0x00, 0x00, 0x01, 0x6D, 0x61, 0x76, 0x20, 0x00, 0x00, 0x00, 0x00, 0x65, 0x64, 0x69, 0x20, 0x00, 0x00, 0x00, 0x69, 0x70, 0x6F, 0x70, 0x20, 0x65, 0x64, 0x69, 0x20] = true := by rfl
theorem test_asm_two_forms :
    assemblesTo [.sum .add (.reg .eax) (.reg .ecx), .sum .add (.reg .eax) (.num 1), .mulDiv .mul (.num 2), .mulDiv .div (.reg .ecx)]
      [0x61, 0x64, 0x64, 0x72, 0x65, 0x61, 0x78, 0x20, 0x65, 0x63, 0x78, 0x20, 0x61, 0x64, 0x64, 0x20, 0x65, 0x61, 0x78, 0x20, 0x00, 0x00, 0x00, 0x01, 0x6D, 0x75, 0x6C, 0x20, 0x00, 0x00, 0x00, 0x02, 0x64, 0x69, 0x76, 0x72, 0x65, 0x63, 0x78, 0x20] = true := by rfl
theorem test_asm_two_labels_one_address :
    assemblesTo [.labelDef "x", .labelDef "y", .hlt, .jump .jmp (.label "x"), .jump .jmp (.label "y")]
      [0x68, 0x6C, 0x74, 0x20, 0x6A, 0x6D, 0x70, 0x20, 0x80, 0x00, 0x00, 0x00, 0x6A, 0x6D, 0x70, 0x20, 0x80, 0x00, 0x00, 0x00] = true := by rfl
theorem test_asm_value_too_large :
    failsWith [.call (.rel .plus 0x80000000)] .valueTooLarge = true ∧ failsWith [.move (.reg .eax) (.num 0x100000000)] .valueTooLarge = true := by
  decide
theorem test_asm_unsupported_operand :
    failsWith [.move (.addr .dword .eax) (.addr .dword .ebx)] .unsupportedOperand = true ∧
      failsWith [.sum .add (.reg .eax) (.addr .dword .ebx)] .unsupportedOperand = true := by decide
theorem test_asm_label_failures :
    failsWith [.jump .jmp (.label "nowhere")] .undefinedLabel = true ∧
      failsWith [.labelDef "a", .nop, .labelDef "a", .hlt] .duplicateLabel = true := by decide
theorem test_asm_unknown_statement : failsWith [.other "loop"] .unknownStatement = true := by decide
/-- P6: `pop eax; hlt` ends at its first instruction with StackUnderflow, and the run result says so. -/
theorem test_run_ends_with_underflow :
    ((State.reset.load (bytes [0x70, 0x6F, 0x70, 0x20, 0x65, 0x61, 0x78, 0x20, 0x68, 0x6C, 0x74, 0x20])).map
      (fun s => (runFor 2 s).runStatus)) = some (.faulted .stackUnderflow) := by rfl

/-! ## For each obligation with hypotheses, what meets them -/

theorem witness_DecodeOfEncodeIsIdentity : Instr.wellFormed (.mrva (.unknown 0x65697020#32) (.bad 3#32) (.reg .esp)) = true := by decide
theorem witness_EncodeOfDecodeIsIdentity : decode (bytes [0x6E, 0x6F, 0x70, 0x20, 0x68]) = .ok (.nop, bytes [0x68]) := by rfl
theorem witness_OpcodeTextAndMatchValueAgree : opcodeOf 0x6F722020#32 = some .or ∧ 0x6F722020#32 = Opcode.or.matchValue := by decide
theorem witness_RegisterUnitsNameEightRegisters :
    0x65697020#32 ∉ [0x65617820#32, 0x65627820#32, 0x65637820#32, 0x65647820#32, 0x65736920#32, 0x65646920#32, 0x65627020#32, 0x65737020#32] := by
  decide

/-- The power-on state with `nop` at ORIGIN. -/
def atNop : State := placed State.reset .nop

/-- `div 0` at ORIGIN with 9 in `eax`. -/
def atDivZero : State := placed (withRegs [(.eax, 9)]) (.div 0#32)

theorem atNop_inv : atNop.Inv := ⟨by decide, by decide, by decide, by decide⟩
theorem witness_StepRunsDecodedInstruction : atNop.runStatus = .running ∧ decode atNop.fetchBytes = .ok (.nop, List.replicate 12 0#8) := ⟨by rfl, by rfl⟩
theorem witness_HaltedOrFaultedMachineHasNoStep :
    State.reset.halt.runStatus = .halted ∧ State.runStatus { State.reset with fatal := some .divideByZero } = .faulted .divideByZero := by decide
/-- Which clause applies is fixed by the parameter; `test_unrecognised_fault` and `test_unrecognised_nop` show both. -/
theorem witness_UnrecognisedOpcodeFollowsPolicy :
    State.reset.runStatus = .running ∧ opcodeOf (BitVec.ofNat 32 (loadedValue State.reset .dword State.reset.eip)) = none := by decide
theorem witness_RunningMachineAlwaysHasNextStep : State.reset.runStatus = .running := by decide
theorem witness_StepKeepsInvariant : atNop.Inv ∧ ∃ t, step atNop = .next t := ⟨atNop_inv, _, by rfl⟩
theorem witness_HostOperationsKeepInvariant : atNop.Inv ∧ ∃ t, atNop.load (bytes [0x68, 0x6C, 0x74, 0x20]) = some t := ⟨atNop_inv, _, by rfl⟩
theorem witness_PlacedWordIsTheNextInstruction : decodeTableWord 32 0x686C7420 = some .hlt := by rfl

theorem witness_RegistersWrittenOnlyWhereNamed : ∃ t, exec (.divr (.reg .ecx)) (withRegs [(.eax, 7), (.ecx, 2)]) = .next t := ⟨_, by rfl⟩
theorem witness_FlagsWrittenOnlyByTheirInstructions :
    (∃ t, exec (.cmp (.reg .eax) 1#32) State.reset = .next t ∧ writesCf (.cmp (.reg .eax) 1#32) = false) ∧
      ∃ t, exec (.add (.reg .eax) 1#32) State.reset = .next t ∧ writesCmpf (.add (.reg .eax) 1#32) = false := ⟨⟨_, by rfl, by rfl⟩, ⟨_, by rfl, by rfl⟩⟩
theorem witness_MemoryWrittenOnlyByStores :
    (∃ t, exec (.call 8#32) State.reset = .next t ∧ storesTo (.call 8#32) State.reset = some (0xFFFFFFFB#32, 4)) ∧
      (∃ t, exec (.mav (.size .word) (.reg .esp) 8#32) State.reset = .next t ∧
        storesTo (.mav (.size .word) (.reg .esp) 8#32) State.reset = some (0xFFFFFFFF#32, 2)) ∧
        ∃ t, exec .nop State.reset = .next t ∧ storesTo .nop State.reset = none := ⟨⟨_, by rfl, by rfl⟩, ⟨_, by rfl, by rfl⟩, ⟨_, by rfl, by rfl⟩⟩
theorem witness_LatchAndConsoleWrittenOnlyByTheirInstructions :
    (∃ t, exec .hlt State.reset = .next t ∧ t.halted ≠ State.reset.halted) ∧
      ∃ t, exec (.int 0#32) State.reset = .next t ∧ t.console ≠ State.reset.console := ⟨⟨_, rfl, by decide⟩, ⟨_, rfl, by decide⟩⟩
theorem witness_EipMovesPastTheEncoding :
    State.reset.fatal = none ∧ ∃ t, exec (.mrv (.reg .eax) 1#32) State.reset = .next t ∧ t.fatal = none ∧
      transfersControl (.mrv (.reg .eax) 1#32) = false := ⟨rfl, _, rfl, rfl, rfl⟩
theorem witness_FatalConditionsHaveNoPartialEffect : ∃ t, step atDivZero = .next t ∧ t.fatal = some .divideByZero := ⟨_, by rfl, by rfl⟩
theorem witness_FirstBadOperandIsReported :
    firstBadOperand (Instr.operands (.mrva (.reg .eax) (.bad 3#32) (.unknown 1#32))) = some (.badSize 3#32) ∧
      firstBadOperand (Instr.operands (.mrvr (.unknown 0#32) (.unknown 1#32))) = some (.unknownRegister 0#32) := by decide

/-- The state after the instruction raised `c`, from a state in which nothing was raised, all operand units being good. -/
def raisesOwn (i : Instr) (s : State) (c : FatalCondition) : Prop :=
  firstBadOperand i.operands = none ∧ s.fatal = none ∧ ∃ t, exec i s = .next t ∧ t.fatal = some c

theorem witness_GoodOperandsRaiseOnlyOwnCondition :
    raisesOwn (.psh 1#32) (withRegs [(.esp, 3)]) .stackOverflow ∧ raisesOwn (.pshr (.reg .eax)) (withRegs [(.esp, 3)]) .stackOverflow ∧
      raisesOwn (.call 1#32) (withRegs [(.esp, 3)]) .stackOverflow ∧
        raisesOwn (.pop (.reg .eax)) (withRegs [(.esp, 0xFFFFFFFC)]) .stackUnderflow ∧ raisesOwn .ret (withRegs [(.esp, 0xFFFFFFFC)]) .stackUnderflow :=
  ⟨⟨rfl, rfl, _, rfl, rfl⟩, ⟨rfl, rfl, _, rfl, rfl⟩, ⟨rfl, rfl, _, rfl, rfl⟩, ⟨rfl, rfl, _, rfl, rfl⟩, ⟨rfl, rfl, _, rfl, rfl⟩⟩
theorem witness_GoodOperandsRaiseOnlyOwnCondition_rest :
    raisesOwn (.div 0#32) State.reset .divideByZero ∧ raisesOwn (.divr (.reg .ecx)) State.reset .divideByZero ∧
      raisesOwn (.int 3#32) State.reset (.unknownInterrupt 3#32) ∧ raisesOwn (.int 1#32) (withRegs [(.edx, 3)]) (.badSize 3#32) :=
  ⟨⟨rfl, rfl, _, rfl, rfl⟩, ⟨rfl, rfl, _, rfl, rfl⟩, ⟨rfl, rfl, _, rfl, rfl⟩, ⟨rfl, rfl, _, rfl, rfl⟩⟩

theorem witness_StoreIsSeenByTheNextFetch :
    (withRegs [(.ebx, 0x80000010)]).reg .ebx = (withRegs [(.ebx, 0x80000010)]).eip + 16#32 := by decide
theorem witness_MemoryRefinesChunkController : atNop.Inv ∧ atNop.chunks = [{ base := 0x80000000, len := 1 }, { base := 0x80000001, len := 1 },
    { base := 0x80000002, len := 1 }, { base := 0x80000003, len := 1 }] := ⟨atNop_inv, by decide⟩
theorem witness_DivideWritesQuotientAndRemainder :
    1#32 ≠ 0#32 ∧ 0xFFFFFFFF#32 ≠ 0#32 ∧ (withRegs [(.edx, 1)]).reg .edx ≠ 0#32 ∧ (withRegs [(.eax, 0xFFFFFFFF)]).reg .eax ≠ 0#32 := by decide
theorem witness_DivideByZeroRaises : State.reset.reg .eax = 0#32 := by decide
theorem witness_PushLowersStackAndStores : 4 ≤ ((withRegs [(.esp, 4)]).reg .esp).toNat ∧ 4 ≤ (State.reset.reg .esp).toNat := by decide
theorem witness_PopLoadsAndRaisesStack :
    ((withRegs [(.esp, 0)]).reg .esp).toNat ≤ 0xFFFFFFFB ∧ ((withRegs [(.esp, 0xFFFFFFFB)]).reg .esp).toNat ≤ 0xFFFFFFFB ∧ Reg.eax ≠ .esp := by decide
theorem witness_CallPushesReturnAddress : 4 ≤ ((withRegs [(.esp, 4)]).reg .esp).toNat := by decide
theorem witness_ReturnPopsInstructionPointer : ((withRegs [(.esp, 0xFFFFFFFB)]).reg .esp).toNat ≤ 0xFFFFFFFB := by decide
theorem witness_StackChecksComeBeforeAnyChange :
    ((withRegs [(.esp, 3)]).reg .esp).toNat < 4 ∧ ((withRegs [(.esp, 0)]).reg .esp).toNat < 4 ∧
      ((withRegs [(.esp, 0xFFFFFFFC)]).reg .esp).toNat > 0xFFFFFFFB ∧ (State.reset.reg .esp).toNat > 0xFFFFFFFB := by decide
theorem witness_PushThenPopRoundTrips :
    4 ≤ ((withRegs [(.esp, 4)]).reg .esp).toNat ∧ Reg.ecx ≠ .esp ∧ ∃ t, exec (.psh 0xDEADBEEF#32) (withRegs [(.esp, 4)]) = .next t :=
  ⟨by decide, by decide, _, rfl⟩
theorem witness_ReturnContinuesAfterCall :
    4 ≤ ((withRegs [(.esp, 4)]).reg .esp).toNat ∧ ∃ t, exec (.call 0x80000020#32) (withRegs [(.esp, 4)]) = .next t := ⟨by decide, _, rfl⟩
theorem witness_ListServiceReadsConsecutiveElements :
    State.reset.reg .edx = Size.byte.code ∧ (withRegs [(.edx, 1)]).reg .edx = Size.word.code ∧ (withRegs [(.edx, 2)]).reg .edx = Size.dword.code := by
  decide
/-- A string of one byte at the top of the address space, ended by the zero byte at address 0; and the empty string. -/
theorem witness_StringServiceStopsAtFirstZero :
    (let s := poke (withRegs [(.esi, 0xFFFFFFFF)]) 0xFFFFFFFF [0x48]
     s.readByte (s.reg .esi + BitVec.ofNat 32 1) = 0#8 ∧ ∀ j, j < 1 → s.readByte (s.reg .esi + BitVec.ofNat 32 j) ≠ 0#8) ∧
      State.reset.readByte (State.reset.reg .esi + BitVec.ofNat 32 0) = 0#8 := by decide
theorem witness_BadInterruptOperandsRaise : (3#32).toNat > 2 ∧ (0xFFFFFFFF#32).toNat > 2 ∧ ((withRegs [(.edx, 3)]).reg .edx).toNat > 2 := by decide
theorem witness_PowerOnValues : Reg.ebp ≠ .esp := by decide
/-- Both sides of the length bound, a buffer that wraps among them, the empty buffer, and a memory with and without chunks. -/
theorem witness_LoadPlacesTheBufferAtOrigin :
    (List.replicate (2 ^ 32 + 1) 0#8).length > 2 ^ 32 ∧ (List.replicate (2 ^ 32) 0#8).length ≤ 2 ^ 32 ∧
      0 < (List.replicate (2 ^ 32) 0#8).length ∧ ([] : List Byte).length ≤ 2 ^ 32 ∧ State.reset.chunks = [] ∧ atNop.chunks ≠ [] := by
  simp only [List.length_replicate]
  decide
/-- The last offset at which each width still lies inside a dword store. -/
theorem witness_MixedWidthAccessesSeeBytes : 3 + Size.byte.nbytes ≤ 4 ∧ 2 + Size.word.nbytes ≤ 4 ∧ 0 + Size.dword.nbytes ≤ 4 := by decide
theorem witness_PassesAgreeOnStatementLengths :
    Stmt.line [] 0 (.compare (.reg .eax) (.addrDisp .byte .ebx .plus 0xFFFFFFFF)) =
      .ok (expandDisplaced .ebx .plus 0xFFFFFFFF#32 (.cmpa (.reg .eax) (.size .byte) (.reg .ebx))) := by rfl
theorem witness_LabelsNameTheNextEmittedByte : passOne 0 [] ([.nop] ++ .labelDef "a" :: [.hlt]) = .ok [("a", 0x80000004)] := by rfl
/-- Both sides of each bound: the largest and the first refused displacement, an address below 0, and R221's own case: a
displacement of 2^32 whose address would be 0. -/
theorem witness_RelativeTargetsCountFromTheStatement :
    Stmt.line [] 0 (.jump .je (.rel .plus 0x7FFFFFFF)) = .ok [.je 0xFFFFFFFF#32] ∧
      Stmt.line [] 0 (.jump .je (.rel .plus 0x80000000)) = .error .valueTooLarge ∧
        Stmt.line [] 0 (.call (.rel .minus 0x80000000)) = .ok [.call 0#32] ∧
          Stmt.line [] 0 (.call (.rel .minus 0x80000001)) = .error .valueTooLarge ∧
            Stmt.line [] 0x80000000 (.jump .jmp (.rel .minus 0xFFFFFFFF)) = .ok [.jmp 1#32] ∧
              Stmt.line [] 0x80000000 (.jump .jmp (.rel .minus 0x100000000)) = .error .valueTooLarge := by
  decide
/-- A supported statement with a number just above the maximum, and one with none above it and a relative target that fails. -/
theorem witness_RelativeTargetsCountFromTheStatement_numbers :
    (let st : Stmt := .move (.addrDisp .byte .eax .minus 0x100000000) (.num 0)
     st.supported = true ∧ ∃ o ∈ st.operands, ∃ n, o.magnitude = some n ∧ n > 0xFFFFFFFF) ∧
      (let st : Stmt := .jump .jmp (.rel .plus 0xFFFFFFFF)
       (∀ o ∈ st.operands, ∀ n, o.magnitude = some n → n ≤ 0xFFFFFFFF) ∧ st.line [] 0 = .error .valueTooLarge) :=
  ⟨⟨by decide, .addrDisp .byte .eax .minus 0x100000000, by decide, 0x100000000, by decide, by decide⟩,
    ⟨fun o ho n hn => by
      obtain rfl : o = .rel .plus 0xFFFFFFFF := by simpa [Stmt.operands] using ho
      obtain rfl : 0xFFFFFFFF = n := by simpa [Operand.magnitude] using hn
      decide, by decide⟩⟩
theorem witness_AssembledImageDecodesToItsLines : assemble [.labelDef "a", .jump .jmp (.label "a"), .hlt] =
    .ok (bytes [0x6A, 0x6D, 0x70, 0x20, 0x80, 0, 0, 0, 0x68, 0x6C, 0x74, 0x20]) := by rfl
theorem witness_DisplacedLoadReadsOffsetAddress :
    4 ≤ ((withRegs [(.esp, 4)]).reg .esp).toNat ∧ Reg.ebx ≠ .esp ∧ Reg.eax ≠ .ebx ∧ Reg.eax ≠ .esp := by decide
theorem witness_DisplacedLoadIntoBaseIsLost : 4 ≤ ((withRegs [(.esp, 4)]).reg .esp).toNat ∧ Reg.eax ≠ .esp := by decide
theorem witness_RunsKeepInvariantAndStayOver :
    State.reset.Inv ∧ (runFor 0 State.reset.halt).runStatus ≠ .running ∧ (runFor 1 (placed State.reset .hlt)).runStatus ≠ .running :=
  ⟨⟨by decide, by decide, by decide, by decide⟩, by decide, by decide⟩

end Sys2Proof.Tests
end

section
/-! SUPPORT. Multi-byte reads (20_memory.md R56, R58): what `bigEndian` computes, which bytes `readBytes` lists, and from
both that `readMem` is the big-endian value of the bytes at its address. -/

namespace Sys2Proof

/-! ## The value of a list of bytes -/

/-- The last byte is the least significant one. -/
@[simp] theorem bigEndian_concat (bs : List Byte) (b : Byte) : bigEndian (bs ++ [b]) = bigEndian bs * 256 + b.toNat :=
  List.foldl_append

/-- `n` bytes spell a number below 256^n. -/
theorem bigEndian_lt (bs : List Byte) : bigEndian bs < 256 ^ bs.length := by
  induction bs using List.reverseRecOn with
  | nil => decide
  | append_singleton bs b ih =>
    have hb : b.toNat < 256 := b.isLt
    rw [bigEndian_concat, List.length_append, List.length_singleton, pow_succ]
    omega

theorem Size.nbytes_le_four (z : Size) : z.nbytes ≤ 4 := by cases z <;> decide

end Sys2Proof

namespace Sys2Proof.Machine

/-! ## The bytes of a read -/

@[simp] theorem State.readBytes_length (s : State) (a : Word) (n : Nat) : (s.readBytes a n).length = n := by
  induction n generalizing a with
  | zero => rfl
  | succ n ih => rw [State.readBytes, List.length_cons, ih]

/-- The bytes read from `a` on spell `loadedValue`: `readBytes` steps its address by one, modulo 2^32, so it lists the
bytes at the same offsets from `a`. -/
theorem bigEndian_readBytes (s : State) (z : Size) (a : Word) : bigEndian (s.readBytes a z.nbytes) = loadedValue s z a := by
  have offset_two : a + 1#32 + 1#32 = a + 2#32 := BitVec.add_assoc a 1#32 1#32
  have offset_three : a + 2#32 + 1#32 = a + 3#32 := BitVec.add_assoc a 2#32 1#32
  cases z with
  | byte => simp [State.readBytes, Size.nbytes, bigEndian, loadedValue]
  | word => simp [State.readBytes, Size.nbytes, bigEndian, loadedValue]
  | dword =>
    simp only [State.readBytes, Size.nbytes, bigEndian, loadedValue, List.foldl, offset_two, offset_three]
    omega

theorem loadedValue_lt (s : State) (z : Size) (a : Word) : loadedValue s z a < 2 ^ (8 * z.nbytes) :=
  calc loadedValue s z a = bigEndian (s.readBytes a z.nbytes) := (bigEndian_readBytes s z a).symm
    _ < 256 ^ (s.readBytes a z.nbytes).length := bigEndian_lt _
    _ = 2 ^ (8 * z.nbytes) := by rw [State.readBytes_length, pow_mul]; rfl

/-! ## The value of a read -/

theorem State.readMem_eq_ofNat_loadedValue (s : State) (z : Size) (a : Word) :
    s.readMem z a = BitVec.ofNat 32 (loadedValue s z a) := by
  rw [State.readMem, bigEndian_readBytes]

/-- No read overflows the 32-bit word that holds it. -/
theorem State.readMem_toNat (s : State) (z : Size) (a : Word) : (s.readMem z a).toNat = loadedValue s z a := by
  have fits : loadedValue s z a < 2 ^ 32 :=
    (loadedValue_lt s z a).trans_le (Nat.pow_le_pow_right (by decide) (Nat.mul_le_mul_left 8 z.nbytes_le_four))
  rw [State.readMem_eq_ofNat_loadedValue, BitVec.toNat_ofNat, Nat.mod_eq_of_lt fits]

/-- Settles O28: a read is the big-endian sum of its bytes, and a sum of `n` bytes lies below 2^(8n). -/
theorem multiByteReadIsBigEndianSum : Obligations.MultiByteReadIsBigEndianSum := by
  intro s z a
  rw [State.readMem_toNat]
  exact ⟨rfl, loadedValue_lt s z a⟩

end Sys2Proof.Machine
end

section
/-! SUPPORT. Opcode units and register units (30_encoding.md R85, R86, R90): the four bytes of a unit determine it, its
right-trimmed text determines it too, and from these that the decoder's two searches are the inverses of R90's and R86's
tables. -/

namespace Sys2Proof

/-! ## The bytes of a unit -/

theorem byteOf_toNat (v : Word) (k : Nat) : (byteOf v k).toNat = v.toNat / 2 ^ (8 * k) % 256 := BitVec.toNat_ofNat _ _

/-- The four bytes of a unit spell its value (R9). -/
theorem bigEndian_unitBytes (v : Word) : bigEndian (unitBytes v) = v.toNat := by
  have hv : v.toNat < 2 ^ 32 := v.isLt
  simp only [unitBytes, bigEndian, List.foldl, byteOf_toNat]
  omega

theorem unitBytes_injective : Function.Injective unitBytes := fun u v h =>
  BitVec.eq_of_toNat_eq (by rw [← bigEndian_unitBytes u, h, bigEndian_unitBytes v])

/-! ## Right-trimming -/

theorem rtakeWhile_beq {α : Type} [BEq α] [LawfulBEq α] (a : α) (l : List α) :
    l.rtakeWhile (· == a) = List.replicate (l.rtakeWhile (· == a)).length a :=
  List.eq_replicate_of_mem fun _ hb => eq_of_beq (List.mem_rtakeWhile_imp (p := (· == a)) hb)

/-- Trimming removes copies of one pad element, so among lists of one length it loses nothing: padding to that length
again restores the list. -/
theorem eq_of_rdropWhile_beq_eq {α : Type} [BEq α] [LawfulBEq α] (a : α) {l m : List α} (hlen : l.length = m.length)
    (htrim : l.rdropWhile (· == a) = m.rdropWhile (· == a)) : l = m := by
  have hl := List.rdropWhile_append_rtakeWhile (p := (· == a)) (l := l)
  have hm := List.rdropWhile_append_rtakeWhile (p := (· == a)) (l := m)
  have hpad : (l.rtakeWhile (· == a)).length = (m.rtakeWhile (· == a)).length := by
    have hl' := congrArg List.length hl
    have hm' := congrArg List.length hm
    rw [List.length_append] at hl' hm'
    rw [htrim] at hl'
    omega
  rw [← hl, ← hm, htrim, rtakeWhile_beq a l, rtakeWhile_beq a m, hpad]

/-- Two units with the same right-trimmed text are the same unit (R85). -/
theorem trimmedText_injective : Function.Injective trimmedText := fun _ _ h =>
  unitBytes_injective (eq_of_rdropWhile_beq_eq padByte rfl h)

/-! ## Opcode units -/

/-- The two columns of R90's table agree: trimming an opcode's `match` value gives its mnemonic. -/
theorem trimmedText_matchValue (o : Opcode) : trimmedText o.matchValue = o.spelling := by cases o <;> rfl

theorem spelling_eq_trimmedText_iff (o : Opcode) (u : Word) : o.spelling = trimmedText u ↔ o.matchValue = u := by
  rw [← trimmedText_matchValue, trimmedText_injective.eq_iff]

/-- R85's two wordings search with the same test. -/
theorem opcodeOfText_eq_opcodeOf (u : Word) : opcodeOfText u = opcodeOf u := by
  have same_test : (fun o : Opcode => o.spelling == trimmedText u) = fun o => o.matchValue == u := by
    funext o
    rw [Bool.eq_iff_iff, beq_iff_eq, beq_iff_eq, spelling_eq_trimmedText_iff]
  rw [opcodeOfText, opcodeOf, same_test]

/-- Every opcode is found by its own `match` value: R90 lists it, and no opcode before it has the same value. -/
@[simp] theorem opcodeOf_matchValue (o : Opcode) : opcodeOf o.matchValue = some o := by cases o <;> rfl

theorem opcodeOf_eq_some_iff (u : Word) (o : Opcode) : opcodeOf u = some o ↔ u = o.matchValue := by
  constructor
  · intro h
    rw [opcodeOf] at h
    have found := List.find?_some h
    exact (eq_of_beq found).symm
  · rintro rfl
    exact opcodeOf_matchValue o

/-- Settles O3: trimming is injective on units and takes each `match` value to its mnemonic, so both wordings of R85 test
the same; what is found is the row of R90 with that value. -/
theorem opcodeTextAndMatchValueAgree : Obligations.OpcodeTextAndMatchValueAgree :=
  ⟨opcodeOfText_eq_opcodeOf, opcodeOf_eq_some_iff, by decide, by decide⟩

/-! ## Register units -/

/-- Every register is found by its own unit. -/
@[simp] theorem regOf_unit (r : Reg) : regOf r.unit = some r := by cases r <;> rfl

/-- `RegOf` answers none for the units outside R86's table. -/
theorem regOf_eq_none_iff (u : Word) : regOf u = none ↔ u ∉ Reg.all.map Reg.unit := by
  rw [regOf, List.find?_eq_none, List.mem_map]
  simp

/-- Settles O4: the eight values are the units of the registers, and the search finds nothing outside their list. -/
theorem registerUnitsNameEightRegisters : Obligations.RegisterUnitsNameEightRegisters :=
  ⟨regOf_unit .eax, regOf_unit .ebx, regOf_unit .ecx, regOf_unit .edx, regOf_unit .esi, regOf_unit .edi, regOf_unit .ebp,
    regOf_unit .esp, fun u outside => (regOf_eq_none_iff u).mpr outside⟩

end Sys2Proof
end

section
/-! SUPPORT. Compare and shift (45_compare_shift.md R173, R181, R182): what `compareWords` and the two shift functions
compute on unsigned integers, what the instructions built on them leave unchanged, and from both what each compare and each
shift does. -/

namespace Sys2Proof.Machine

/-! ## Comparing words -/

theorem compareWords_eq_greater_iff (x y : Word) : compareWords x y = .greater ↔ x.toNat > y.toNat := by
  unfold compareWords
  split_ifs <;> simp <;> omega

theorem compareWords_eq_less_iff (x y : Word) : compareWords x y = .less ↔ x.toNat < y.toNat := by
  unfold compareWords
  split_ifs <;> simp <;> omega

theorem compareWords_eq_equal_iff (x y : Word) : compareWords x y = .equal ↔ x.toNat = y.toNat := by
  unfold compareWords
  split_ifs <;> simp <;> omega

/-- Writing `Cmp(x, y)` after moving `eip` past an instruction of `n` bytes is all that a compare does. -/
theorem writesCompareFlag_setCmpf (x y : Word) (n : Nat) (s : State) :
    WritesCompareFlag x.toNat y.toNat n s ((s.advance n).setCmpf (compareWords x y)) :=
  ⟨compareWords_eq_greater_iff x y, compareWords_eq_less_iff x y, compareWords_eq_equal_iff x y, rfl, rfl, fun _ _ => rfl,
    ⟨fun _ => rfl, rfl⟩, rfl, rfl, rfl, rfl⟩

/-! ## The compare instructions -/

theorem exec_cmp_reg (a : Reg) (imm : Word) (s : State) :
    exec (.cmp (.reg a) imm) s = .next ((s.advance 12).setCmpf (compareWords (s.reg a) imm)) := rfl

theorem exec_cmpr_reg (a b : Reg) (s : State) :
    exec (.cmpr (.reg a) (.reg b)) s = .next ((s.advance 12).setCmpf (compareWords (s.reg a) (s.reg b))) := rfl

/-- Moving `eip` does not change the bytes, so the value compared is the one `s` holds at its own address register. -/
theorem exec_cmpa_reg (a m : Reg) (z : Size) (s : State) :
    exec (.cmpa (.reg a) (.size z) (.reg m)) s =
      .next ((s.advance 16).setCmpf (compareWords (s.reg a) (s.readMem z (s.reg m)))) := by
  rw [← State.advance_readMem s 16 z (s.reg m)]
  rfl

/-- Settles O46: each form writes `compareWords` of its two operands and nothing else; the memory operand is the
zero-extended read, whose value is `loadedValue`. -/
theorem compareIsUnsignedForEveryOperandKind : Obligations.CompareIsUnsignedForEveryOperandKind := by
  intro a b m z imm s
  refine ⟨⟨_, exec_cmp_reg a imm s, writesCompareFlag_setCmpf _ _ _ _⟩,
    ⟨_, exec_cmpr_reg a b s, writesCompareFlag_setCmpf _ _ _ _⟩, _, exec_cmpa_reg a m z s, ?_⟩
  rw [← State.readMem_toNat]
  exact writesCompareFlag_setCmpf _ _ _ _

/-! ## Writing one register -/

theorem writesOneRegister_setReg (a : Reg) (v : Word) (n : Nat) (s : State) :
    WritesOneRegister a v n s ((s.advance n).setReg a v) :=
  ⟨State.reg_setReg_same _ a v, rfl, fun _ other => State.reg_setReg_ne _ v (List.ne_of_not_mem_cons other), ⟨rfl, rfl⟩,
    ⟨fun _ => rfl, rfl⟩, rfl, rfl, rfl, rfl⟩

/-- The immediate member of a pair that writes no flag (R138), on a register unit that names a register. -/
theorem registerImmediate_writes (f : Word → Word → Word) (a : Reg) (imm : Word) (s : State) :
    ∃ t, registerImmediate f (.reg a) imm s = .next t ∧ WritesOneRegister a (f (s.reg a) imm) 12 s t :=
  ⟨_, rfl, writesOneRegister_setReg a _ 12 s⟩

/-- The register member of such a pair (R138). -/
theorem registerRegister_writes (f : Word → Word → Word) (a b : Reg) (s : State) :
    ∃ t, registerRegister f (.reg a) (.reg b) s = .next t ∧ WritesOneRegister a (f (s.reg a) (s.reg b)) 12 s t :=
  ⟨_, rfl, writesOneRegister_setReg a _ 12 s⟩

/-! ## Shifting words -/

/-- The exponent of R181: the whole count, reduced modulo 32 under `mod32`. -/
def shiftCount (mode : ShiftGe32) (c : Word) : Nat :=
  match mode with
  | .zero => c.toNat
  | .mod32 => c.toNat % 32

/-- Where `f` answers 0 for every count of 32 and more, `shiftWith` needs no bound: it is `f` at the exponent of R181. -/
theorem shiftWith_eq_shiftCount (mode : ShiftGe32) {f : Nat → Word} (vanishes : ∀ n, 32 ≤ n → f n = 0#32) (c : Word) :
    shiftWith mode f c = f (shiftCount mode c) := by
  unfold shiftWith
  split
  next small =>
    cases mode with
    | zero => rfl
    | mod32 => rw [shiftCount, Nat.mod_eq_of_lt small]
  next large =>
    cases mode with
    | zero => exact (vanishes c.toNat (Nat.le_of_not_lt large)).symm
    | mod32 => rfl

/-- A left shift by 32 or more is a multiple of 2^32. -/
theorem narrow_mul_two_pow_eq_zero (a : Word) {n : Nat} (h : 32 ≤ n) : narrow (a.toNat * 2 ^ n) = 0#32 :=
  BitVec.eq_of_toNat_eq <| by
    rw [narrow, BitVec.toNat_ofNat]
    exact Nat.mod_eq_zero_of_dvd ((pow_dvd_pow 2 h).mul_left _)

/-- A word lies below 2^32, so a right shift by 32 or more leaves nothing of it. -/
theorem narrow_div_two_pow_eq_zero (a : Word) {n : Nat} (h : 32 ≤ n) : narrow (a.toNat / 2 ^ n) = 0#32 := by
  have below : a.toNat < 2 ^ n := a.isLt.trans_le (Nat.pow_le_pow_right (by decide) h)
  rw [Nat.div_eq_of_lt below]
  rfl

theorem shiftLeft_toNat (mode : ShiftGe32) (a c : Word) :
    (shiftLeft mode a c).toNat = a.toNat * 2 ^ shiftCount mode c % 2 ^ 32 := by
  rw [shiftLeft, shiftWith_eq_shiftCount mode fun _ => narrow_mul_two_pow_eq_zero a]
  exact BitVec.toNat_ofNat _ _

theorem shiftRight_toNat (mode : ShiftGe32) (a c : Word) :
    (shiftRight mode a c).toNat = a.toNat / 2 ^ shiftCount mode c := by
  have fits : a.toNat / 2 ^ shiftCount mode c < 2 ^ 32 := (Nat.div_le_self _ _).trans_lt a.isLt
  rw [shiftRight, shiftWith_eq_shiftCount mode fun _ => narrow_div_two_pow_eq_zero a]
  exact (BitVec.toNat_ofNat _ _).trans (Nat.mod_eq_of_lt fits)

/-! ## The shift instructions -/

/-- Settles O47: the four shifts write one register and no flag, and what they write is R181's integer at the exponent
`shiftCount`, whichever value `Config.shiftGe32` has. -/
theorem shiftsAreLogicalForEveryCount : Obligations.ShiftsAreLogicalForEveryCount := by
  intro a b imm s count
  obtain ⟨tl, shl_next, shl_writes⟩ := registerImmediate_writes (shiftLeft Config.shiftGe32) a imm s
  obtain ⟨tlr, shlr_next, shlr_writes⟩ := registerRegister_writes (shiftLeft Config.shiftGe32) a b s
  obtain ⟨tr, shr_next, shr_writes⟩ := registerImmediate_writes (shiftRight Config.shiftGe32) a imm s
  obtain ⟨trr, shrr_next, shrr_writes⟩ := registerRegister_writes (shiftRight Config.shiftGe32) a b s
  exact ⟨⟨tl, _, shl_next, shl_writes, shiftLeft_toNat _ _ _⟩, ⟨tlr, _, shlr_next, shlr_writes, shiftLeft_toNat _ _ _⟩,
    ⟨tr, _, shr_next, shr_writes, shiftRight_toNat _ _ _⟩, trr, _, shrr_next, shrr_writes, shiftRight_toNat _ _ _⟩

end Sys2Proof.Machine
end

section
/-! SUPPORT. Failures of the assembler (47_assembler.md R207, R208, R221): when a number or a relative target has no word,
what each kind of line makes of that, and from both which statements fail with value-too-large. -/

namespace Sys2Proof.Machine

/-! ## Numbers -/

theorem number_of_le {n : Nat} (fits : n ≤ Config.maxWord) : number n = .ok (BitVec.ofNat 32 n) :=
  if_neg (Nat.not_lt.mpr fits)

theorem number_of_gt {n : Nat} (large : n > Config.maxWord) : number n = .error .valueTooLarge := if_pos large

theorem withNumber_eq_ite (n : Nat) (f : Word → Instr) :
    withNumber n f = if n ≤ Config.maxWord then .ok [f (BitVec.ofNat 32 n)] else .error .valueTooLarge := by
  split_ifs with fits
  · rw [withNumber, number_of_le fits]
  · rw [withNumber, number_of_gt (Nat.lt_of_not_le fits)]

theorem withNumber_eq_valueTooLarge_iff (n : Nat) (f : Word → Instr) :
    withNumber n f = .error .valueTooLarge ↔ n > Config.maxWord := by
  simp [withNumber_eq_ite]

/-- A displaced line has two places for a number that is too large: its displacement and the line it is built around. -/
theorem displacedLine_eq_valueTooLarge_iff (r : Reg) (sign : Sign) (n : Nat) (op : Except AssemblyError (List Instr)) :
    displacedLine r sign n op = .error .valueTooLarge ↔ n > Config.maxWord ∨ op = .error .valueTooLarge := by
  rcases Nat.lt_or_ge Config.maxWord n with large | fits
  · simp [displacedLine, number_of_gt large, large]
  · cases op with
    | error e => simp [displacedLine, number_of_le fits, Nat.not_lt.mpr fits]
    | ok is => simp [displacedLine, number_of_le fits, fits]

/-! ## Relative targets -/

theorem targetLine_num (table : LabelTable) (off n : Nat) (f : Word → Instr) :
    targetLine table off f (.num n) = withNumber n f := rfl

/-- Once its displacement fits, a relative target is the line of its address. -/
theorem targetLine_rel_plus (table : LabelTable) (off n : Nat) (f : Word → Instr) :
    targetLine table off f (.rel .plus n) =
      if n ≤ Config.maxWord ∧ Config.origin.toNat + off + n ≤ Config.maxWord then
        .ok [f (BitVec.ofNat 32 (Config.origin.toNat + off + n))]
      else .error .valueTooLarge := by
  by_cases fits : n ≤ Config.maxWord
  · have same_line : targetLine table off f (.rel .plus n) = withNumber (Config.origin.toNat + off + n) f := by
      rw [targetLine, targetAddress, if_neg (Nat.not_lt.mpr fits)]
      rfl
    simp only [same_line, withNumber_eq_ite, fits, true_and]
  · rw [targetLine, targetAddress, if_pos (Nat.lt_of_not_le fits), if_neg fun both => fits both.1]

/-- Below address 0 there is no line; from there up a relative target is the line of its address. -/
theorem targetLine_rel_minus (table : LabelTable) (off n : Nat) (f : Word → Instr) :
    targetLine table off f (.rel .minus n) =
      if n ≤ Config.maxWord ∧ n ≤ Config.origin.toNat + off ∧ Config.origin.toNat + off - n ≤ Config.maxWord then
        .ok [f (BitVec.ofNat 32 (Config.origin.toNat + off - n))]
      else .error .valueTooLarge := by
  by_cases fits : n ≤ Config.maxWord
  · by_cases above : n ≤ Config.origin.toNat + off
    · have same_line : targetLine table off f (.rel .minus n) = withNumber (Config.origin.toNat + off - n) f := by
        rw [targetLine, targetAddress, if_neg (Nat.not_lt.mpr fits), if_neg (Nat.not_lt.mpr above)]
        rfl
      simp only [same_line, withNumber_eq_ite, fits, above, true_and]
    · rw [targetLine, targetAddress, if_neg (Nat.not_lt.mpr fits), if_pos (Nat.lt_of_not_le above),
        if_neg fun all => above all.2.1]
  · rw [targetLine, targetAddress, if_pos (Nat.lt_of_not_le fits), if_neg fun all => fits all.1]

/-! ## Operands that have no word -/

/-- The number written in the operand is above the maximum (R221). -/
def Operand.TooLarge (o : Operand) : Prop := ∃ n, o.magnitude = some n ∧ n > Config.maxWord

/-- The operand is a relative target whose address, counted from offset `off`, lies outside 0..0xFFFFFFFF (R208). -/
def Operand.OutsideFrom (off : Nat) : Operand → Prop
  | .rel .plus n => Config.origin.toNat + off + n > Config.maxWord
  | .rel .minus n => Config.origin.toNat + off < n ∨ Config.origin.toNat + off - n > Config.maxWord
  | _ => False

/-- In a statement at offset `off`, the operand has no word: its number or its address is too large. -/
def Operand.NoWord (off : Nat) (o : Operand) : Prop := o.TooLarge ∨ o.OutsideFrom off

section
variable (off : Nat)

@[simp] theorem Operand.noWord_num (n : Nat) : (Operand.num n).NoWord off ↔ n > Config.maxWord := by
  simp [NoWord, TooLarge, OutsideFrom, magnitude]

@[simp] theorem Operand.noWord_addrDisp (z : Size) (r : Reg) (sign : Sign) (n : Nat) :
    (Operand.addrDisp z r sign n).NoWord off ↔ n > Config.maxWord := by
  simp [NoWord, TooLarge, OutsideFrom, magnitude]

@[simp] theorem Operand.not_noWord_reg (r : Reg) : ¬ (Operand.reg r).NoWord off := by
  simp [NoWord, TooLarge, OutsideFrom, magnitude]

@[simp] theorem Operand.not_noWord_addr (z : Size) (r : Reg) : ¬ (Operand.addr z r).NoWord off := by
  simp [NoWord, TooLarge, OutsideFrom, magnitude]

@[simp] theorem Operand.not_noWord_label (name : String) : ¬ (Operand.label name).NoWord off := by
  simp [NoWord, TooLarge, OutsideFrom, magnitude]

theorem Operand.noWord_rel (sign : Sign) (n : Nat) :
    (Operand.rel sign n).NoWord off ↔ n > Config.maxWord ∨ (Operand.rel sign n).OutsideFrom off := by
  simp [NoWord, TooLarge, magnitude]

theorem Operand.OutsideFrom.exists_rel {off : Nat} {o : Operand} (h : o.OutsideFrom off) : ∃ sign n, o = .rel sign n := by
  cases o with
  | rel sign n => exact ⟨sign, n, rfl⟩
  | reg | num | addr | addrDisp | label => exact h.elim

/-! ## The lines that fail with value-too-large -/

theorem targetLine_eq_valueTooLarge_iff (table : LabelTable) (f : Word → Instr) (o : Operand) :
    targetLine table off f o = .error .valueTooLarge ↔ o.isTarget ∧ o.NoWord off := by
  cases o with
  | num n => simp [targetLine_num, withNumber_eq_valueTooLarge_iff, Operand.isTarget]
  | label name => cases h : table.find name <;> simp [targetLine, targetAddress, h]
  | rel sign n =>
    cases sign with
    | plus =>
      rw [targetLine_rel_plus, Operand.noWord_rel]
      simp only [Operand.isTarget, Operand.OutsideFrom, ite_eq_right_iff, reduceCtorEq, imp_false, true_and]
      omega
    | minus =>
      rw [targetLine_rel_minus, Operand.noWord_rel]
      simp only [Operand.isTarget, Operand.OutsideFrom, ite_eq_right_iff, reduceCtorEq, imp_false, true_and]
      omega
  | reg | addr | addrDisp => simp [targetLine, targetAddress, Operand.isTarget]

theorem oneOperandLine_eq_valueTooLarge_iff (imm : Word → Instr) (reg : RegOperand → Instr) (o : Operand) :
    oneOperandLine imm reg o = .error .valueTooLarge ↔ o.isNumOrReg ∧ o.NoWord off := by
  cases o with
  | num n => simp [oneOperandLine, withNumber_eq_valueTooLarge_iff, Operand.isNumOrReg]
  | reg | addr | addrDisp | label | rel => simp [oneOperandLine, Operand.isNumOrReg]

theorem twoFormLine_eq_valueTooLarge_iff (imm : RegOperand → Word → Instr) (reg : RegOperand → RegOperand → Instr)
    (a b : Operand) :
    twoFormLine imm reg a b = .error .valueTooLarge ↔ (a.isReg ∧ b.isNumOrReg) ∧ (a.NoWord off ∨ b.NoWord off) := by
  cases a with
  | reg d => cases b <;> simp [twoFormLine, withNumber_eq_valueTooLarge_iff, Operand.isReg, Operand.isNumOrReg]
  | num | addr | addrDisp | label | rel => simp [twoFormLine, Operand.isReg]

theorem compareLine_eq_valueTooLarge_iff (a b : Operand) :
    compareLine a b = .error .valueTooLarge ↔ (Stmt.compare a b).supported ∧ (a.NoWord off ∨ b.NoWord off) := by
  cases a with
  | reg d =>
    cases b <;> simp [compareLine, withNumber_eq_valueTooLarge_iff, displacedLine_eq_valueTooLarge_iff, Stmt.supported,
      Operand.isReg, Operand.isNumOrReg, Operand.isMem]
  | num | addr | addrDisp | label | rel => simp [compareLine, Stmt.supported, Operand.isReg]

theorem moveLine_eq_valueTooLarge_iff (a b : Operand) :
    moveLine a b = .error .valueTooLarge ↔ (Stmt.move a b).supported ∧ (a.NoWord off ∨ b.NoWord off) := by
  cases a with
  | reg | addr | addrDisp =>
    cases b <;> simp [moveLine, withNumber_eq_valueTooLarge_iff, displacedLine_eq_valueTooLarge_iff, Stmt.supported,
      Operand.isReg, Operand.isNumOrReg, Operand.isMem]
  | num | label | rel => simp [moveLine, Stmt.supported, Operand.isReg, Operand.isMem]

/-- Value-too-large is the failure of exactly the statements that have a line for their operand kinds and an operand without
a word. -/
theorem Stmt.line_eq_valueTooLarge_iff (table : LabelTable) (st : Stmt) :
    st.line table off = .error .valueTooLarge ↔ st.supported ∧ ∃ o ∈ st.operands, o.NoWord off := by
  cases st with
  | jump | call => simp [line, supported, operands, targetLine_eq_valueTooLarge_iff]
  | move a b => simp [line, operands, moveLine_eq_valueTooLarge_iff off]
  | compare a b => simp [line, operands, compareLine_eq_valueTooLarge_iff off]
  | sum op | bitwise op | shift op =>
    cases op <;> simp [line, supported, operands, twoFormLine_eq_valueTooLarge_iff off]
  | mulDiv op => cases op <;> simp [line, supported, operands, oneOperandLine_eq_valueTooLarge_iff off]
  | push => simp [line, supported, operands, oneOperandLine_eq_valueTooLarge_iff off]
  | negate d | pop d => cases d <;> simp [line, supported, operands, Operand.isReg]
  | interrupt o => cases o <;> simp [line, supported, operands, withNumber_eq_valueTooLarge_iff]
  | labelDef | ret | nop | hlt | other => simp [line, operands]

end

/-- Settles O57: the four relative lines are computed, and value-too-large is exactly an operand without a word; where no
number is too large, that operand is a relative target. -/
theorem relativeTargetsCountFromTheStatement : Obligations.RelativeTargetsCountFromTheStatement := by
  refine ⟨fun table off n k => ⟨targetLine_rel_plus table off n _, targetLine_rel_minus table off n _,
    targetLine_rel_plus table off n _, targetLine_rel_minus table off n _⟩, fun table off st => ⟨?_, ?_⟩⟩
  · rintro supported ⟨o, mem, large⟩
    exact (Stmt.line_eq_valueTooLarge_iff off table st).mpr ⟨supported, o, mem, .inl large⟩
  · intro bounded failed
    obtain ⟨-, o, mem, noWord⟩ := (Stmt.line_eq_valueTooLarge_iff off table st).mp failed
    rcases noWord with ⟨n, written, large⟩ | outside
    · exact absurd (bounded o mem n written) (Nat.not_le.mpr large)
    · obtain ⟨sign, n, rfl⟩ := outside.exists_rel
      exact ⟨sign, n, mem⟩

end Sys2Proof.Machine
end

section
/-! SUPPORT. Fatal conditions (60_exceptions.md R240, R242): a step leaves the fatal condition as it was, or it is a `raise`
on the state it began in. So whatever a raising instruction would have written, it has not written yet. -/

namespace Sys2Proof.Machine

/-- What a raise leaves unchanged (R242), said of the condition that the raised state carries. -/
theorem Raises.raisedAndNothingElse {s t : State} {c : FatalCondition} (raised : Raises s t) (faulted : t.fatal = some c) :
    RaisedAndNothingElse c s t := by
  obtain ⟨c', n, raised⟩ := raised
  obtain ⟨spec, -⟩ := raise_spec raised
  have same_condition : c' = c := Option.some.inj (spec.left.symm.trans faulted)
  exact same_condition ▸ spec

/-! ## Results that keep the fatal condition or raise one -/

/-- If `r`, answered by an instruction at `s`, is a next state, then its fatal condition is that of `s`, or the instruction
raised on `s` itself. -/
def FatalKeptOrRaised (s : State) (r : Result) : Prop := ∀ t, r = .next t → t.fatal = s.fatal ∨ Raises s t

section
variable {s : State}

theorem FatalKeptOrRaised.of_next {t : State} (kept : t.fatal = s.fatal) : FatalKeptOrRaised s (.next t) :=
  fun _ h => .inl (Host.Outcome.next.inj h ▸ kept)

theorem FatalKeptOrRaised.of_raise (c : FatalCondition) (n : Nat) : FatalKeptOrRaised s (raise c n s) :=
  fun _ raised => .inr ⟨c, n, raised⟩

/-! ## Operand units: every format of R82 is a nest of these two -/

theorem FatalKeptOrRaised.of_withReg {o : RegOperand} {n : Nat} {k : Reg → Result}
    (good : ∀ r, FatalKeptOrRaised s (k r)) : FatalKeptOrRaised s (withReg o n s k) := by
  intro t h
  rcases withReg_next h with ⟨r, -, h⟩ | ⟨u, -, raised⟩
  · exact good r t h
  · exact .inr ⟨_, _, raised⟩

theorem FatalKeptOrRaised.of_withSize {o : SizeOperand} {n : Nat} {k : Size → Result}
    (good : ∀ z, FatalKeptOrRaised s (k z)) : FatalKeptOrRaised s (withSize o n s k) := by
  intro t h
  rcases withSize_next h with ⟨z, -, h⟩ | ⟨u, -, raised⟩
  · exact good z t h
  · exact .inr ⟨_, _, raised⟩

/-! ## The operations that check something of their own -/

theorem push_fatal {v : Word} {t : State} (h : push v s = some t) : t.fatal = s.fatal := by
  obtain ⟨-, rfl⟩ := push_some_iff.mp h
  exact State.writeMem_fatal _ _ _ _

theorem pop_fatal {v : Word} {t : State} (h : pop s = some (v, t)) : t.fatal = s.fatal := by
  obtain ⟨-, -, rfl⟩ := pop_some_iff.mp h
  rfl

theorem jumpIf_fatalKeptOrRaised (taken : Bool) (imm : Word) : FatalKeptOrRaised s (jumpIf taken imm s) :=
  .of_next (by cases taken <;> rfl)

theorem divideBy_fatalKeptOrRaised (b : Word) : FatalKeptOrRaised s (divideBy b s) := by
  intro t h
  rcases divideBy_next h with ⟨-, rfl⟩ | ⟨-, raised⟩
  · exact .inl rfl
  · exact .inr ⟨_, _, raised⟩

theorem pushOrOverflow_fatalKeptOrRaised (v : Word) : FatalKeptOrRaised s (pushOrOverflow v s) := by
  intro t h
  rcases pushOrOverflow_next h with pushed | raised
  · exact .inl (push_fatal pushed :)
  · exact .inr raised

theorem execPop_fatalKeptOrRaised (ra : RegOperand) : FatalKeptOrRaised s (execPop ra s) := by
  refine .of_withReg fun a => ?_
  split
  next => exact .of_raise _ _
  next popped => exact .of_next (pop_fatal popped :)

theorem execCall_fatalKeptOrRaised (imm : Word) : FatalKeptOrRaised s (execCall imm s) := by
  unfold execCall
  split
  next => exact .of_raise _ _
  next pushed => exact .of_next (push_fatal pushed :)

theorem execRet_fatalKeptOrRaised : FatalKeptOrRaised s (execRet s) := by
  unfold execRet
  split
  next => exact .of_raise _ _
  next popped => exact .of_next (pop_fatal popped :)

theorem execInt_fatalKeptOrRaised (imm : Word) : FatalKeptOrRaised s (execInt imm s) := by
  intro t h
  rcases execInt_next h with ⟨e, rfl⟩ | raised
  · exact .inl rfl
  · exact .inr raised

theorem unrecognisedOpcode_fatalKeptOrRaised (p : UnknownOpcodePolicy) (u : Word) :
    FatalKeptOrRaised s (unrecognisedOpcode p u s) := by
  intro t h
  rcases unrecognisedOpcode_next h with ⟨-, rfl⟩ | ⟨-, raised⟩
  · exact .inl rfl
  · exact .inr ⟨_, _, raised⟩

end

/-! ## Instructions and steps -/

/-- By format (R82): once the operand units are good, only divide, the stack instructions and `int` can still raise; the
others answer a next state with the fatal condition of `s`. -/
theorem exec_fatalKeptOrRaised (i : Instr) (s : State) : FatalKeptOrRaised s (exec i s) := by
  cases i with
  | jmp | jg | jge | jl | jle | je | jne => exact jumpIf_fatalKeptOrRaised _ _
  | mrv | add | sub | and | or | xor | cmp | shr | shl | mulr | neg => exact .of_withReg fun _ => .of_next rfl
  | mrvr | addr | subr | andr | orr | xorr | cmpr | shrr | shlr =>
    exact .of_withReg fun _ => .of_withReg fun _ => .of_next rfl
  | mrva | cmpa => exact .of_withReg fun _ => .of_withSize fun _ => .of_withReg fun _ => .of_next rfl
  | mav => exact .of_withSize fun _ => .of_withReg fun _ => .of_next (State.writeMem_fatal _ _ _ _)
  | mavr =>
    exact .of_withSize fun _ => .of_withReg fun _ => .of_withReg fun _ => .of_next (State.writeMem_fatal _ _ _ _)
  | mul | hlt | nop => exact .of_next rfl
  | div => exact divideBy_fatalKeptOrRaised _
  | divr => exact .of_withReg fun _ => divideBy_fatalKeptOrRaised _
  | psh => exact pushOrOverflow_fatalKeptOrRaised _
  | pshr => exact .of_withReg fun _ => pushOrOverflow_fatalKeptOrRaised _
  | pop => exact execPop_fatalKeptOrRaised _
  | call => exact execCall_fatalKeptOrRaised _
  | ret => exact execRet_fatalKeptOrRaised
  | int => exact execInt_fatalKeptOrRaised _

theorem step_fatalKeptOrRaised (s : State) : FatalKeptOrRaised s (step s) := by
  intro t h
  obtain ⟨-, ⟨i, -, h⟩ | ⟨u, -, h⟩⟩ := step_next h
  · exact exec_fatalKeptOrRaised i s t h
  · exact unrecognisedOpcode_fatalKeptOrRaised _ u t h

/-- Settles O21: only a running machine steps, and it carries no fatal condition; so a step that ends with one did not keep
it but raised it on the state it began in. -/
theorem fatalConditionsHaveNoPartialEffect : Obligations.FatalConditionsHaveNoPartialEffect := by
  intro s t c h faulted
  obtain ⟨running, -⟩ := step_next h
  obtain ⟨-, unraised⟩ := (State.runStatus_running_iff s).mp running
  rcases step_fatalKeptOrRaised s t h with kept | raised
  · rw [kept, unraised] at faulted
    exact nomatch faulted
  · exact raised.raisedAndNothingElse faulted

end Sys2Proof.Machine
end

section
/-! SUPPORT. Multi-byte stores (20_memory.md R57 to R59, R66): which byte stands at an address after `writeBytes` and after
`writeMem`, and from it what a later read of any width sees. -/

namespace Sys2Proof.Machine

/-! ## Offsets -/

theorem add_one_add_ofNat (a : Word) (k : Nat) : a + 1#32 + BitVec.ofNat 32 k = a + BitVec.ofNat 32 (k + 1) := by
  rw [BitVec.add_assoc, ← BitVec.ofNat_add, Nat.add_comm]

/-- An offset below 2^32 is the distance of its address. -/
theorem add_ofNat_sub_self (a : Word) {k : Nat} (small : k < 2 ^ 32) : (a + BitVec.ofNat 32 k - a).toNat = k := by
  rw [BitVec.add_comm, BitVec.add_sub_cancel, BitVec.toNat_ofNat, Nat.mod_eq_of_lt small]

/-! ## Bytes after a store -/

/-- The byte at `x` after laying `bs` at `a`: the one `x - a` places into `bs` where `bs` reaches so far, else the old
one. -/
theorem State.readByte_writeBytes (s : State) (a x : Word) (bs : List Byte) (fits : bs.length ≤ 2 ^ 32) :
    (s.writeBytes a bs).readByte x = bs.getD (x - a).toNat (s.readByte x) := by
  induction bs generalizing s a with
  | nil => rfl
  | cons b bs ih =>
    rw [List.length_cons] at fits
    show ((s.writeByte a b).writeBytes (a + 1#32) bs).readByte x = _
    rw [ih _ _ (by omega), State.readByte_writeByte]
    by_cases here : x = a
    · have past : bs.length ≤ (x - (a + 1#32)).toNat := by
        have wraps : (x - (a + 1#32)).toNat = 2 ^ 32 - 1 := by subst here; bv_omega
        omega
      rw [if_pos here, List.getD_eq_default _ _ past, here, BitVec.sub_self]
      rfl
    · have next : (x - a).toNat = (x - (a + 1#32)).toNat + 1 := by bv_omega
      rw [if_neg here, next, List.getD_cons_succ]

/-- Byte `k` of a list laid at `a` reads back at `a + k`. -/
theorem State.readByte_writeBytes_offset (s : State) (a : Word) (bs : List Byte) (fits : bs.length ≤ 2 ^ 32) {k : Nat}
    (inside : k < bs.length) : (s.writeBytes a bs).readByte (a + BitVec.ofNat 32 k) = bs[k] := by
  rw [State.readByte_writeBytes s a _ bs fits, add_ofNat_sub_self a (by omega), List.getD_eq_getElem _ _ inside]

/-- Byte `k` of the low bytes of `v`, most significant first. -/
theorem lowBytes_getElem (z : Size) (v : Word) {k : Nat} (inside : k < (lowBytes z v).length) :
    (lowBytes z v)[k] = byteOf v (z.nbytes - 1 - k) := by
  rw [lowBytes_length] at inside
  match z, k, inside with
  | .byte, 0, _ => rfl
  | .word, 0, _ | .word, 1, _ => rfl
  | .dword, 0, _ | .dword, 1, _ | .dword, 2, _ | .dword, 3, _ => rfl

theorem lowBytes_length_le (z : Size) (v : Word) : (lowBytes z v).length ≤ 2 ^ 32 := by
  have := z.nbytes_le_four
  rw [lowBytes_length]
  omega

/-- `MemWrite` lays the low bytes, most significant first (R57). -/
theorem State.readByte_writeMem_offset (s : State) (z : Size) (a v : Word) {k : Nat} (inside : k < z.nbytes) :
    (s.writeMem z a v).readByte (a + BitVec.ofNat 32 k) = byteOf v (z.nbytes - 1 - k) := by
  have listed : k < (lowBytes z v).length := (lowBytes_length z v).symm ▸ inside
  rw [State.writeMem, State.readByte_writeBytes_offset s a _ (lowBytes_length_le z v) listed, lowBytes_getElem]

theorem State.readByte_writeMem (s : State) (z : Size) (a v x : Word) :
    (s.writeMem z a v).readByte x =
      if (x - a).toNat < z.nbytes then byteOf v (z.nbytes - 1 - (x - a).toNat) else s.readByte x := by
  have split_getD := State.readByte_writeBytes s a x (lowBytes z v) (lowBytes_length_le z v)
  rw [State.writeMem, split_getD]
  split
  next inside =>
    have listed : (x - a).toNat < (lowBytes z v).length := (lowBytes_length z v).symm ▸ inside
    rw [List.getD_eq_getElem _ _ listed, lowBytes_getElem]
  next outside => exact List.getD_eq_default _ _ (by rw [lowBytes_length]; omega)

/-- `MemWrite` in the terms of the statements (R57, R61). -/
theorem State.writeMem_stores (s : State) (z : Size) (a v : Word) : StoresBigEndian a z.nbytes v s (s.writeMem z a v) :=
  ⟨fun _ inside => State.readByte_writeMem_offset s z a v inside, State.writeMem_frame s z a v⟩

/-! ## Reads after a store -/

/-- A read lists the bytes at the offsets from its address. -/
theorem State.readBytes_eq_map (s : State) (a : Word) (n : Nat) :
    s.readBytes a n = (List.range n).map fun k => s.readByte (a + BitVec.ofNat 32 k) := by
  induction n generalizing a with
  | zero => rfl
  | succ n ih =>
    rw [State.readBytes, ih, List.range_succ_eq_map, List.map_cons, List.map_map, BitVec.add_zero]
    simp only [Function.comp_def, add_one_add_ofNat, Nat.succ_eq_add_one]

/-- What has been laid reads back. -/
theorem State.readBytes_writeBytes (s : State) (a : Word) (bs : List Byte) (fits : bs.length ≤ 2 ^ 32) :
    (s.writeBytes a bs).readBytes a bs.length = bs := by
  refine List.ext_getElem (State.readBytes_length _ _ _) fun k _ inside => ?_
  simp only [State.readBytes_eq_map, List.getElem_map, List.getElem_range]
  exact State.readByte_writeBytes_offset s a bs fits inside

/-- A dword just stored reads back. -/
theorem State.readMem_writeMem_dword (s : State) (a v : Word) : (s.writeMem .dword a v).readMem .dword a = v := by
  have back : (s.writeMem .dword a v).readBytes a 4 = unitBytes v :=
    State.readBytes_writeBytes s a (unitBytes v) (lowBytes_length_le .dword v)
  rw [State.readMem, Size.nbytes, back, bigEndian_unitBytes, BitVec.ofNat_toNat, BitVec.setWidth_eq]

/-- One byte more of a read is one byte more at its end. -/
theorem State.readBytes_concat (s : State) (a : Word) (n : Nat) :
    s.readBytes a (n + 1) = s.readBytes a n ++ [s.readByte (a + BitVec.ofNat 32 n)] := by
  simp only [State.readBytes_eq_map, List.range_succ, List.map_append, List.map_singleton]

/-- The bytes `k` to `k + n` of a dword store spell those bytes of the stored value. -/
theorem State.bigEndian_readBytes_inside_dword (s : State) (a v : Word) {k n : Nat} (inside : k + n ≤ 4) :
    bigEndian ((s.writeMem .dword a v).readBytes (a + BitVec.ofNat 32 k) n) =
      v.toNat / 2 ^ (8 * (4 - k - n)) % 256 ^ n := by
  induction n with
  | zero => exact (Nat.mod_one _).symm
  | succ n ih =>
    have reached : k + n < Size.dword.nbytes := inside
    have last : (s.writeMem .dword a v).readByte (a + BitVec.ofNat 32 k + BitVec.ofNat 32 n) =
        byteOf v (4 - k - (n + 1)) := by
      rw [BitVec.add_assoc, ← BitVec.ofNat_add, State.readByte_writeMem_offset s .dword a v reached]
      congr 1
      rw [Size.nbytes]
      omega
    have shift : v.toNat / 2 ^ (8 * (4 - k - n)) = v.toNat / 2 ^ (8 * (4 - k - (n + 1))) / 256 := by
      rw [show 4 - k - n = 4 - k - (n + 1) + 1 by omega, Nat.mul_succ, pow_add, Nat.div_div_eq_div_mul]
      rfl
    rw [State.readBytes_concat, bigEndian_concat, ih (by omega), last, byteOf_toNat, shift, pow_succ', Nat.mod_mul]
    omega

/-- Settles O29: the first clause is the value of any read, the second the byte after any store; inside a dword store the
bytes read spell those bytes of the value, and the dword at `a + 1` is three of them and the byte after the store. -/
theorem mixedWidthAccessesSeeBytes : Obligations.MixedWidthAccessesSeeBytes := by
  intro s a v
  have read_inside (z : Size) (k : Nat) (h : k + z.nbytes ≤ 4) :
      ((s.writeMem .dword a v).readMem z (a + BitVec.ofNat 32 k)).toNat =
        v.toNat / 2 ^ (8 * (4 - k - z.nbytes)) % 2 ^ (8 * z.nbytes) := by
    rw [State.readMem_toNat, ← bigEndian_readBytes, State.bigEndian_readBytes_inside_dword s a v h, pow_mul 2 8 z.nbytes]
    rfl
  have low_three : bigEndian ((s.writeMem .dword a v).readBytes (a + 1#32) 3) = v.toNat % 2 ^ 24 := by
    have spelled := State.bigEndian_readBytes_inside_dword s a v (k := 1) (n := 3) (by decide)
    rwa [Nat.sub_self, Nat.mul_zero, pow_zero, Nat.div_one] at spelled
  have after : (s.writeMem .dword a v).readByte (a + 1#32 + 3#32) = s.readByte (a + 4#32) := by
    have beyond : (a + 4#32 - a).toNat = 4 := add_ofNat_sub_self a (by decide)
    rw [BitVec.add_assoc, show 1#32 + 3#32 = 4#32 from rfl, State.readByte_writeMem, beyond]
    rfl
  refine ⟨fun stored loaded b => State.readMem_toNat _ _ _, fun stored x => State.readByte_writeMem s stored a v x,
    read_inside, ?_⟩
  rw [State.readMem_toNat, ← bigEndian_readBytes, Size.nbytes, State.readBytes_concat, bigEndian_concat, low_three, after]
  rfl

end Sys2Proof.Machine
end

section
/-! SUPPORT. The stack (44_stack_call.md R155 to R161): the state after a push and after a pop, what each of the five stack
instructions answers on either side of its check, and how a pop undoes a push. -/

namespace Sys2Proof.Machine

/-! ## A push with room -/

/-- The state after `Push(v)` with room (R160). -/
def State.pushed (s : State) (v : Word) : State :=
  (s.setReg .esp (s.reg .esp - 4#32)).writeMem .dword (s.reg .esp - 4#32) v

theorem push_of_room {s : State} (v : Word) (room : 4 ≤ (s.reg .esp).toNat) : push v s = some (s.pushed v) :=
  push_some_iff.mpr ⟨room, rfl⟩

theorem push_of_low {s : State} (v : Word) (low : (s.reg .esp).toNat < 4) : push v s = none := if_pos low

@[simp] theorem State.pushed_eip (s : State) (v : Word) : (s.pushed v).eip = s.eip := State.writeMem_eip _ _ _ _
@[simp] theorem State.pushed_cmpf (s : State) (v : Word) : (s.pushed v).cmpf = s.cmpf := State.writeMem_cmpf _ _ _ _
@[simp] theorem State.pushed_cf (s : State) (v : Word) : (s.pushed v).cf = s.cf := State.writeMem_cf _ _ _ _
@[simp] theorem State.pushed_halted (s : State) (v : Word) : (s.pushed v).halted = s.halted := State.writeMem_halted _ _ _ _
@[simp] theorem State.pushed_fatal (s : State) (v : Word) : (s.pushed v).fatal = s.fatal := State.writeMem_fatal _ _ _ _
@[simp] theorem State.pushed_console (s : State) (v : Word) : (s.pushed v).console = s.console := State.writeMem_console _ _ _ _
@[simp] theorem State.pushed_freeCount (s : State) (v : Word) : (s.pushed v).freeCount = s.freeCount := State.writeMem_freeCount _ _ _ _

/-- What pushing `v` does to the state but for `eip`: `esp` is lowered by 4, the dword is stored at the new `esp`, and
nothing else changes (R155, R160). -/
structure Pushes (v : Word) (s t : State) : Prop where
  esp : t.reg .esp = s.reg .esp - 4#32
  stores : StoresBigEndian (s.reg .esp - 4#32) 4 v s t
  regs : SameRegsExcept [.esp] s t
  flags : SameFlags s t
  status : SameStatus s t

theorem State.pushed_pushes (s : State) (v : Word) : Pushes v s (s.pushed v) where
  esp := by rw [State.pushed, State.writeMem_reg, State.reg_setReg_same]
  stores := State.writeMem_stores (s.setReg .esp _) .dword _ v
  regs q other := by rw [State.pushed, State.writeMem_reg, State.reg_setReg_ne _ _ (List.ne_of_not_mem_cons other)]
  flags := ⟨State.pushed_cmpf s v, State.pushed_cf s v⟩
  status := ⟨State.pushed_halted s v, State.pushed_fatal s v, State.pushed_console s v, State.pushed_freeCount s v⟩

section
variable {v : Word} {s t : State}

theorem Pushes.of_advance {n : Nat} (h : Pushes v (s.advance n) t) : Pushes v s t :=
  ⟨h.esp, h.stores, h.regs, h.flags, h.status⟩

theorem Pushes.setEip (h : Pushes v s t) (e : Word) : Pushes v s (t.setEip e) :=
  ⟨h.esp, h.stores, h.regs, h.flags, h.status⟩

theorem Pushes.esp_toNat (h : Pushes v s t) (room : 4 ≤ (s.reg .esp).toNat) :
    (t.reg .esp).toNat = (s.reg .esp).toNat - 4 := by
  rw [h.esp]
  exact BitVec.toNat_sub_of_le room

/-- After a push there is something to pop. -/
theorem Pushes.esp_le (h : Pushes v s t) (room : 4 ≤ (s.reg .esp).toNat) : (t.reg .esp).toNat ≤ 0xFFFFFFFB := by
  have below : (s.reg .esp).toNat < 2 ^ 32 := (s.reg .esp).isLt
  rw [h.esp_toNat room]
  omega

/-- Raising `esp` after a push restores every register (R162). -/
theorem Pushes.reg_setReg_esp (h : Pushes v s t) (q : Reg) : (t.setReg .esp (t.reg .esp + 4#32)).reg q = s.reg q := by
  rw [State.reg_setReg]
  split
  next same => rw [same, h.esp, BitVec.sub_add_cancel]
  next other => exact h.regs q (List.mem_singleton.not.mpr other)

end

/-- The dword on top of the stack after a push is the pushed one (R160). -/
theorem State.pushed_top (s : State) (v : Word) : (s.pushed v).readMem .dword ((s.pushed v).reg .esp) = v := by
  rw [(s.pushed_pushes v).esp]
  exact State.readMem_writeMem_dword _ _ v

/-! ## A pop with something to pop -/

theorem pop_of_some {s : State} (something : (s.reg .esp).toNat ≤ 0xFFFFFFFB) :
    pop s = some (s.readMem .dword (s.reg .esp), s.setReg .esp (s.reg .esp + 4#32)) :=
  pop_some_iff.mpr ⟨something, rfl, rfl⟩

theorem pop_of_high {s : State} (high : (s.reg .esp).toNat > 0xFFFFFFFB) : pop s = none := if_pos high

theorem esp_add_four_toNat {s : State} (something : (s.reg .esp).toNat ≤ 0xFFFFFFFB) :
    (s.reg .esp + 4#32).toNat = (s.reg .esp).toNat + 4 :=
  BitVec.toNat_add_of_lt (Nat.lt_of_le_of_lt (Nat.add_le_add_right something 4) (by decide))

/-! ## The five instructions on either side of their checks -/

theorem pushOrOverflow_of_room {s : State} (v : Word) (room : 4 ≤ (s.reg .esp).toNat) :
    pushOrOverflow v s = .next ((s.advance 8).pushed v) := by
  rw [pushOrOverflow, push_of_room (s := s.advance 8) v room]

theorem pushOrOverflow_of_low {s : State} (v : Word) (low : (s.reg .esp).toNat < 4) :
    pushOrOverflow v s = raise .stackOverflow 8 s := by
  rw [pushOrOverflow, push_of_low (s := s.advance 8) v low]

theorem exec_call_of_room {s : State} (imm : Word) (room : 4 ≤ (s.reg .esp).toNat) :
    exec (.call imm) s = .next (((s.advance 8).pushed (s.eip + 8#32)).setEip imm) := by
  rw [exec, execCall, push_of_room (s := s.advance 8) _ room]
  rfl

theorem exec_call_of_low {s : State} (imm : Word) (low : (s.reg .esp).toNat < 4) :
    exec (.call imm) s = raise .stackOverflow 8 s := by
  rw [exec, execCall, push_of_low (s := s.advance 8) _ low]

theorem exec_pop_of_some {s : State} (r : Reg) (something : (s.reg .esp).toNat ≤ 0xFFFFFFFB) :
    exec (.pop (.reg r)) s =
      .next (((s.advance 8).setReg .esp (s.reg .esp + 4#32)).setReg r (s.readMem .dword (s.reg .esp))) := by
  rw [exec, execPop, withReg, pop_of_some (s := s.advance 8) something, State.advance_readMem]
  rfl

theorem exec_pop_of_high {s : State} (r : Reg) (high : (s.reg .esp).toNat > 0xFFFFFFFB) :
    exec (.pop (.reg r)) s = raise .stackUnderflow 8 s := by
  rw [exec, execPop, withReg, pop_of_high (s := s.advance 8) high]

theorem exec_ret_of_some {s : State} (something : (s.reg .esp).toNat ≤ 0xFFFFFFFB) :
    exec .ret s =
      .next (((s.advance 4).setReg .esp (s.reg .esp + 4#32)).setEip (s.readMem .dword (s.reg .esp))) := by
  rw [exec, execRet, pop_of_some (s := s.advance 4) something, State.advance_readMem]
  rfl

theorem exec_ret_of_high {s : State} (high : (s.reg .esp).toNat > 0xFFFFFFFB) :
    exec .ret s = raise .stackUnderflow 4 s := by
  rw [exec, execRet, pop_of_high (s := s.advance 4) high]

/-! ## The statements -/

/-- Settles O39: with room both forms answer `pushed`, with the immediate or with the register's value before `esp` is
lowered. -/
theorem pushLowersStackAndStores : Obligations.PushLowersStackAndStores := by
  intro r imm s room
  have push_effect (v : Word) : ∃ t, pushOrOverflow v s = .next t ∧ (t.reg .esp).toNat = (s.reg .esp).toNat - 4 ∧
      StoresBigEndian (s.reg .esp - 4#32) 4 v s t ∧ t.eip = s.eip + 8#32 ∧
        SameRegsExcept [.esp] s t ∧ SameFlags s t ∧ SameStatus s t := by
    have pushes := ((s.advance 8).pushed_pushes v).of_advance
    exact ⟨_, pushOrOverflow_of_room v room, pushes.esp_toNat room, pushes.stores, State.pushed_eip _ v, pushes.regs,
      pushes.flags, pushes.status⟩
  exact ⟨push_effect imm, push_effect (s.reg r)⟩

/-- Settles O40: the destination is written last, so for `pop esp` it is the popped dword that stays. -/
theorem popLoadsAndRaisesStack : Obligations.PopLoadsAndRaisesStack := by
  intro r s something
  refine ⟨_, exec_pop_of_some r something, ?_, fun other => ?_, rfl, fun q outside => ?_, ⟨rfl, rfl⟩, ⟨fun _ => rfl, rfl⟩,
    rfl, rfl, rfl, rfl⟩
  · rw [State.reg_setReg_same, State.readMem_toNat]
  · rw [State.reg_setReg_ne _ _ other.symm, State.reg_setReg_same, esp_add_four_toNat something]
  · rw [State.reg_setReg_ne _ _ (List.ne_of_not_mem_cons outside),
      State.reg_setReg_ne _ _ (List.ne_of_not_mem_cons (List.not_mem_of_not_mem_cons outside)), State.advance_reg]

/-- Settles O41: a call pushes `eip` past itself and then replaces `eip`. -/
theorem callPushesReturnAddress : Obligations.CallPushesReturnAddress := by
  intro imm s room
  have pushes := ((s.advance 8).pushed_pushes (s.eip + 8#32)).of_advance.setEip imm
  exact ⟨_, exec_call_of_room imm room, rfl, pushes.esp_toNat room, pushes.stores, pushes.regs, pushes.flags, pushes.status⟩

/-- Settles O42: the popped dword is the read at `esp`, and `eip` takes it. -/
theorem returnPopsInstructionPointer : Obligations.ReturnPopsInstructionPointer := by
  intro s something
  refine ⟨_, exec_ret_of_some something, State.readMem_toNat _ _ _, ?_, fun q other => ?_, ⟨rfl, rfl⟩,
    ⟨fun _ => rfl, rfl⟩, rfl, rfl, rfl, rfl⟩
  · rw [State.setEip_reg, State.reg_setReg_same, esp_add_four_toNat something]
  · rw [State.setEip_reg, State.reg_setReg_ne _ _ (List.ne_of_not_mem_cons other), State.advance_reg]

/-- A raise answers a next state in which nothing but the condition is new (R242). -/
theorem raise_raisedAndNothingElse (c : FatalCondition) (n : Nat) (s : State) :
    ∃ t, raise c n s = .next t ∧ RaisedAndNothingElse c s t :=
  ⟨_, rfl, (raise_spec rfl).1⟩

/-- Settles O43: below its bound each instruction is a raise on the state it began in. -/
theorem stackChecksComeBeforeAnyChange : Obligations.StackChecksComeBeforeAnyChange := by
  refine ⟨fun r imm s low => ?_, fun r s high => ?_, by decide⟩
  · have overflow (v : Word) : ∃ t, pushOrOverflow v s = .next t ∧ RaisedAndNothingElse .stackOverflow s t :=
      pushOrOverflow_of_low v low ▸ raise_raisedAndNothingElse _ _ _
    exact ⟨overflow imm, overflow (s.reg r), exec_call_of_low imm low ▸ raise_raisedAndNothingElse _ _ _⟩
  · exact ⟨exec_pop_of_high r high ▸ raise_raisedAndNothingElse _ _ _,
      exec_ret_of_high high ▸ raise_raisedAndNothingElse _ _ _⟩

/-! ## A pop undoes a push -/

/-- Settles O44: the pop finds the pushed dword on top and raises `esp` back. -/
theorem pushThenPopRoundTrips : Obligations.PushThenPopRoundTrips := by
  intro s t v r room other pushed
  obtain rfl : (s.advance 8).pushed v = t := Host.Outcome.next.inj ((pushOrOverflow_of_room v room).symm.trans pushed)
  have pushes := ((s.advance 8).pushed_pushes v).of_advance
  refine ⟨_, exec_pop_of_some r (pushes.esp_le room), ?_, ?_, fun q outside => ?_⟩
  · rw [State.reg_setReg_same, State.pushed_top]
  · rw [State.reg_setReg_ne _ _ other.symm]
    exact pushes.reg_setReg_esp .esp
  · rw [State.reg_setReg_ne _ _ (List.ne_of_not_mem_cons outside)]
    exact pushes.reg_setReg_esp q

/-- Settles O45: the jump of the call leaves the stack as the push left it, so `ret` pops the address after the call. -/
theorem returnContinuesAfterCall : Obligations.ReturnContinuesAfterCall := by
  intro s t imm room called
  obtain rfl : ((s.advance 8).pushed (s.eip + 8#32)).setEip imm = t :=
    Host.Outcome.next.inj ((exec_call_of_room imm room).symm.trans called)
  have pushes := ((s.advance 8).pushed_pushes (s.eip + 8#32)).of_advance.setEip imm
  refine ⟨_, exec_ret_of_some (pushes.esp_le room), ?_, fun q _ => pushes.reg_setReg_esp q⟩
  rw [State.setEip_eip, State.setEip_readMem, State.setEip_reg, State.pushed_top]

end Sys2Proof.Machine
end

section
/-! SUPPORT. Jumps and moves (40_control.md, 41_move.md): the conditions of the jumps as values of the compare flag, and the
next states of the moves, loads and stores on operand units that are good. -/

namespace Sys2Proof.Machine

/-! ## Jumps -/

theorem CompareFlag.isG_iff (c : CompareFlag) : c.isG = true ↔ c = .greater := by cases c <;> decide
theorem CompareFlag.isGe_iff (c : CompareFlag) : c.isGe = true ↔ c ≠ .less := by cases c <;> decide
theorem CompareFlag.isL_iff (c : CompareFlag) : c.isL = true ↔ c = .less := by cases c <;> decide
theorem CompareFlag.isLe_iff (c : CompareFlag) : c.isLe = true ↔ c ≠ .greater := by cases c <;> decide
theorem CompareFlag.isE_iff (c : CompareFlag) : c.isE = true ↔ c = .equal := by cases c <;> decide
theorem CompareFlag.isNe_iff (c : CompareFlag) : c.isNe = true ↔ c ≠ .equal := by cases c <;> decide

/-- A jump changes nothing but `eip`, taken or not (R117). -/
theorem jumpIf_eq (taken : Bool) (imm : Word) (s : State) :
    jumpIf taken imm s = .next { s with eip := if taken then imm else s.eip + 8#32 } := by
  cases taken <;> rfl

/-- Settles O24: each condition is an equation or an inequation of the compare flag; after reset the flag is `equal`. -/
theorem jumpsFollowTheCompareFlag : Obligations.JumpsFollowTheCompareFlag := by
  have by_flag (imm : Word) (s : State) :
      exec (.jmp imm) s = .next { s with eip := imm } ∧
        exec (.jg imm) s = .next { s with eip := if s.cmpf = .greater then imm else s.eip + 8#32 } ∧
          exec (.jge imm) s = .next { s with eip := if s.cmpf = .less then s.eip + 8#32 else imm } ∧
            exec (.jl imm) s = .next { s with eip := if s.cmpf = .less then imm else s.eip + 8#32 } ∧
              exec (.jle imm) s = .next { s with eip := if s.cmpf = .greater then s.eip + 8#32 else imm } ∧
                exec (.je imm) s = .next { s with eip := if s.cmpf = .equal then imm else s.eip + 8#32 } ∧
                  exec (.jne imm) s = .next { s with eip := if s.cmpf = .equal then s.eip + 8#32 else imm } := by
    simp only [exec, execJmp, execJg, execJge, execJl, execJle, execJe, execJne, jumpIf_eq, CompareFlag.isG_iff,
      CompareFlag.isGe_iff, CompareFlag.isL_iff, CompareFlag.isLe_iff, CompareFlag.isE_iff, CompareFlag.isNe_iff,
      ite_not, if_true, and_self]
  refine ⟨by_flag, fun imm => ?_⟩
  obtain ⟨-, jg, jge, jl, jle, je, jne⟩ := by_flag imm State.reset
  exact ⟨jge, jle, je, jg, jl, jne⟩

/-! ## Register moves and loads -/

theorem exec_mrva_reg (a m : Reg) (z : Size) (s : State) :
    exec (.mrva (.reg a) (.size z) (.reg m)) s = .next ((s.advance 16).setReg a (s.readMem z (s.reg m))) := by
  rw [← State.advance_readMem s 16 z (s.reg m)]
  rfl

/-- Settles O25: both write one register; the source of `mrvr` is read before the destination is written. -/
theorem registerMovesWriteDestination : Obligations.RegisterMovesWriteDestination := fun a b imm s =>
  ⟨⟨_, rfl, writesOneRegister_setReg a imm 12 s⟩, _, rfl, writesOneRegister_setReg a (s.reg b) 12 s⟩

/-- Settles O26: the value written is the read at the address register's value in the old state. -/
theorem loadWritesZeroExtendedValue : Obligations.LoadWritesZeroExtendedValue := fun a m z s =>
  ⟨_, exec_mrva_reg a m z s, State.readMem_eq_ofNat_loadedValue s z (s.reg m) ▸ writesOneRegister_setReg a _ 16 s⟩

/-! ## Stores -/

theorem exec_mav_reg (z : Size) (m : Reg) (imm : Word) (s : State) :
    exec (.mav (.size z) (.reg m) imm) s = .next ((s.advance 16).writeMem z (s.reg m) imm) := rfl

theorem exec_mavr_reg (z : Size) (m b : Reg) (s : State) :
    exec (.mavr (.size z) (.reg m) (.reg b)) s = .next ((s.advance 16).writeMem z (s.reg m) (s.reg b)) := rfl

/-- What a store instruction does: its bytes are stored and `eip` moves past it. -/
theorem store_effect (z : Size) (a v : Word) (s : State) :
    StoresBigEndian a z.nbytes v s ((s.advance 16).writeMem z a v) ∧
      ((s.advance 16).writeMem z a v).eip = s.eip + 16#32 ∧ SameRegsExcept [] s ((s.advance 16).writeMem z a v) ∧
        SameFlags s ((s.advance 16).writeMem z a v) ∧ SameStatus s ((s.advance 16).writeMem z a v) :=
  ⟨(s.advance 16).writeMem_stores z a v, State.writeMem_eip _ _ _ _, fun _ _ => State.writeMem_reg _ _ _ _ _,
    ⟨State.writeMem_cmpf _ _ _ _, State.writeMem_cf _ _ _ _⟩, State.writeMem_halted _ _ _ _, State.writeMem_fatal _ _ _ _,
    State.writeMem_console _ _ _ _, State.writeMem_freeCount _ _ _ _⟩

/-- Settles O27: both are `MemWrite` at the address register's value. -/
theorem storesWriteLowBytes : Obligations.StoresWriteLowBytes := fun m b z imm s =>
  ⟨⟨_, exec_mav_reg z m imm s, store_effect z (s.reg m) imm s⟩,
    _, exec_mavr_reg z m b s, store_effect z (s.reg m) (s.reg b) s⟩

/-- Settles O30: the store leaves `eip` at the address it stored to, and a dword reads back. -/
theorem storeIsSeenByTheNextFetch : Obligations.StoreIsSeenByTheNextFetch := by
  intro s m v just_after
  refine ⟨_, exec_mav_reg .dword m v s, ?_⟩
  rw [State.unitAt, State.writeMem_eip, State.advance_eip, just_after, BitVec.add_zero]
  exact State.readMem_writeMem_dword _ _ v

end Sys2Proof.Machine
end

section
/-! SUPPORT. Arithmetic, bitwise and unary instructions (42_arithmetic.md, 43_bitwise_unary.md): the ALU functions as
integers or bits, and the next states of the instructions built on them. -/

namespace Sys2Proof.Machine

/-! ## Add and multiply -/

/-- Writing an exact result with its carry after moving `eip` is all that an add or a multiply does (R140). -/
theorem writesRegisterAndCarry_writeWithCarry (a : Reg) (r n : Nat) (s : State) :
    WritesRegisterAndCarry a r n s (writeWithCarry a r (s.advance n)) := by
  refine ⟨?_, decide_eq_true_iff, rfl, rfl, fun q other => ?_, ⟨fun _ => rfl, rfl⟩, rfl, rfl, rfl, rfl⟩
  · rw [writeWithCarry, State.setCf_reg, State.reg_setReg_same, narrow, BitVec.toNat_ofNat]
  · rw [writeWithCarry, State.setCf_reg, State.reg_setReg_ne _ _ (List.ne_of_not_mem_cons other), State.advance_reg]

/-- Settles O32: the exact result is the sum. -/
theorem addWritesSumAndCarry : Obligations.AddWritesSumAndCarry := fun a _ _ s =>
  ⟨⟨_, rfl, writesRegisterAndCarry_writeWithCarry a _ 12 s⟩, _, rfl, writesRegisterAndCarry_writeWithCarry a _ 12 s⟩

/-- Settles O34: the exact result is the product. -/
theorem multiplyWritesProductAndCarry : Obligations.MultiplyWritesProductAndCarry := fun _ _ s =>
  ⟨⟨_, rfl, writesRegisterAndCarry_writeWithCarry .eax _ 8 s⟩, _, rfl, writesRegisterAndCarry_writeWithCarry .eax _ 8 s⟩

/-! ## Subtract -/

theorem narrow_toNat_of_le {r : Nat} {w : Word} (below : r ≤ w.toNat) : (narrow r).toNat = r := by
  rw [narrow, BitVec.toNat_ofNat, Nat.mod_eq_of_lt (below.trans_lt w.isLt)]

/-- `max(a - b, 0)` as integers (R132). -/
theorem saturatingSub_toInt (a b : Word) : ((saturatingSub a b).toNat : Int) = max (a.toNat - b.toNat : Int) 0 := by
  rw [saturatingSub, narrow_toNat_of_le (Nat.sub_le _ _)]
  omega

/-- Settles O33: both write `saturatingSub` to one register. -/
theorem subtractSaturatesAtZero : Obligations.SubtractSaturatesAtZero := by
  intro a b imm s
  obtain ⟨t, sub_next, sub_writes⟩ := registerImmediate_writes saturatingSub a imm s
  obtain ⟨u, subr_next, subr_writes⟩ := registerRegister_writes saturatingSub a b s
  exact ⟨⟨t, _, sub_next, sub_writes, saturatingSub_toInt _ _⟩, u, _, subr_next, subr_writes, saturatingSub_toInt _ _⟩

/-! ## Divide -/

theorem divideBy_of_ne_zero {b : Word} (nonzero : b ≠ 0#32) (s : State) :
    divideBy b s = .next (writeDivision b (s.advance 8)) := if_neg nonzero

theorem divideBy_zero (s : State) : divideBy 0#32 s = raise .divideByZero 8 s := rfl

theorem writeDivision_eax (b : Word) (s : State) : (writeDivision b s).reg .eax = quotient (s.reg .eax) b := by
  rw [writeDivision, State.reg_setReg_ne _ _ (by decide), State.reg_setReg_same]

theorem writeDivision_edx (b : Word) (s : State) : (writeDivision b s).reg .edx = remainder (s.reg .eax) b := by
  rw [writeDivision, State.reg_setReg_same]

theorem writeDivision_sameRegs (b : Word) (s : State) : SameRegsExcept [.eax, .edx] s (writeDivision b s) := by
  intro q outside
  rw [writeDivision, State.reg_setReg_ne _ _ (List.ne_of_not_mem_cons (List.not_mem_of_not_mem_cons outside)),
    State.reg_setReg_ne _ _ (List.ne_of_not_mem_cons outside)]

theorem quotient_toNat (a b : Word) : (quotient a b).toNat = a.toNat / b.toNat := narrow_toNat_of_le (Nat.div_le_self _ _)

theorem remainder_toNat (a b : Word) : (remainder a b).toNat = a.toNat % b.toNat := narrow_toNat_of_le (Nat.mod_le _ _)

/-- Settles O35: both forms write the quotient and the remainder by the divisor's old value, and these satisfy the division
equation. -/
theorem divideWritesQuotientAndRemainder : Obligations.DivideWritesQuotientAndRemainder := by
  have divide (b : Word) (s : State) (nonzero : b ≠ 0#32) :
      ∃ t, divideBy b s = .next t ∧ (s.reg .eax).toNat = (t.reg .eax).toNat * b.toNat + (t.reg .edx).toNat ∧
        (t.reg .edx).toNat < b.toNat ∧ t.eip = s.eip + 8#32 ∧ SameRegsExcept [.eax, .edx] s t ∧ SameFlags s t ∧
          SameMemory s t ∧ SameStatus s t := by
    have positive : 0 < b.toNat := Nat.pos_of_ne_zero fun h => nonzero (BitVec.eq_of_toNat_eq h)
    refine ⟨_, divideBy_of_ne_zero nonzero s, ?_, ?_, rfl, writeDivision_sameRegs b (s.advance 8), ⟨rfl, rfl⟩,
      ⟨fun _ => rfl, rfl⟩, rfl, rfl, rfl, rfl⟩
    · rw [writeDivision_eax, writeDivision_edx, quotient_toNat, remainder_toNat, State.advance_reg]
      exact (Nat.div_add_mod' _ _).symm
    · rw [writeDivision_edx, remainder_toNat]
      exact Nat.mod_lt _ positive
  exact ⟨fun imm s => divide imm s, fun r s => divide (s.reg r) s⟩

/-- Settles O36: the zero divisor is a raise on the state before the division. -/
theorem divideByZeroRaises : Obligations.DivideByZeroRaises := by
  refine ⟨fun s => raise_raisedAndNothingElse _ _ s, fun r s zero => ?_⟩
  have divided : exec (.divr (.reg r)) s = divideBy (s.reg r) s := rfl
  rw [divided, zero, divideBy_zero]
  exact raise_raisedAndNothingElse _ _ s

/-! ## Bitwise and negate -/

/-- Settles O37: each pair writes one register by a function that works bit by bit. -/
theorem bitwiseInstructionsWorkBitByBit : Obligations.BitwiseInstructionsWorkBitByBit := by
  intro a b imm s
  have immediate (op : Bool → Bool → Bool) {f : Word → Word → Word}
      (bits : ∀ x y k, (f x y).getLsbD k = op (x.getLsbD k) (y.getLsbD k)) :
      ∃ t v, registerImmediate f (.reg a) imm s = .next t ∧ WritesOneRegister a v 12 s t ∧
        ∀ k, v.getLsbD k = op ((s.reg a).getLsbD k) (imm.getLsbD k) :=
    let ⟨t, next, writes⟩ := registerImmediate_writes f a imm s
    ⟨t, _, next, writes, bits _ _⟩
  have register (op : Bool → Bool → Bool) {f : Word → Word → Word}
      (bits : ∀ x y k, (f x y).getLsbD k = op (x.getLsbD k) (y.getLsbD k)) :
      ∃ t v, registerRegister f (.reg a) (.reg b) s = .next t ∧ WritesOneRegister a v 12 s t ∧
        ∀ k, v.getLsbD k = op ((s.reg a).getLsbD k) ((s.reg b).getLsbD k) :=
    let ⟨t, next, writes⟩ := registerRegister_writes f a b s
    ⟨t, _, next, writes, bits _ _⟩
  exact ⟨immediate Bool.and fun _ _ _ => BitVec.getLsbD_and, register Bool.and fun _ _ _ => BitVec.getLsbD_and,
    immediate Bool.or fun _ _ _ => BitVec.getLsbD_or, register Bool.or fun _ _ _ => BitVec.getLsbD_or,
    immediate Bool.xor fun _ _ _ => BitVec.getLsbD_xor, register Bool.xor fun _ _ _ => BitVec.getLsbD_xor⟩

theorem complement_toNat (a : Word) : (complement a).toNat = 0xFFFFFFFF - a.toNat :=
  narrow_toNat_of_le (w := 0xFFFFFFFF#32) (Nat.sub_le _ _)

/-- The complement relative to the maximum is the bitwise complement (R151). -/
theorem complement_eq_not (a : Word) : complement a = ~~~a :=
  BitVec.eq_of_toNat_eq (by rw [complement_toNat, BitVec.toNat_not])

/-- Settles O38: the value written is `complement`, in both readings of R151. -/
theorem negateIsComplementToMaximum : Obligations.NegateIsComplementToMaximum := by
  intro a s
  refine ⟨_, rfl, complement_eq_not (s.reg a) ▸ writesOneRegister_setReg a _ 8 s, ?_⟩
  rw [State.reg_setReg_same, State.advance_reg, complement_toNat]

end Sys2Proof.Machine
end

section
/-! SUPPORT. The system instructions and resets (46_system.md, 10_state.md R39, 70_reset_and_hazards.md R271): what the list
service and the string service read, which operands of `int` raise, and the values after power-on and register reset. -/

namespace Sys2Proof.Machine

/-! ## Sizes by their codes -/

@[simp] theorem sizeOf?_code (z : Size) : sizeOf? z.code = some z := by cases z <;> rfl

/-- A code above 2 names no size (R88). -/
theorem sizeOf?_eq_none_iff (u : Word) : sizeOf? u = none ↔ u.toNat > 2 := by
  unfold sizeOf?
  split_ifs with byte word dword
  · simp [byte]
  · simp [word]
  · simp [dword]
  · simp only [true_iff]
    bv_omega

/-- A code that names a size is the code of that size. -/
theorem eq_code_of_sizeOf? {u : Word} {z : Size} (named : sizeOf? u = some z) : u = z.code := by
  unfold sizeOf? at named
  split_ifs at named with byte word dword <;> cases named <;> assumption

/-! ## The list service -/

/-- Element `k` starts `k` strides above the first (R187). -/
theorem State.readElements_eq_map (s : State) (z : Size) (a : Word) (n : Nat) :
    s.readElements z a n = (List.range n).map fun k => s.readMem z (a + BitVec.ofNat 32 (k * z.nbytes)) := by
  induction n generalizing a with
  | zero => rfl
  | succ n ih =>
    have next_stride (k : Nat) :
        a + BitVec.ofNat 32 z.nbytes + BitVec.ofNat 32 (k * z.nbytes) = a + BitVec.ofNat 32 ((k + 1) * z.nbytes) := by
      rw [BitVec.add_assoc, ← BitVec.ofNat_add, Nat.succ_mul, Nat.add_comm]
    rw [State.readElements, ih, List.range_succ_eq_map, List.map_cons, List.map_map, Nat.zero_mul, BitVec.add_zero]
    simp only [Function.comp_def, next_stride, Nat.succ_eq_add_one]

theorem int1_of_size {s : State} {z : Size} (named : sizeOf? (s.reg .edx) = some z) :
    int1 s = .next ((s.advance 8).emit (.list (s.readElements z (s.reg .esi) (s.reg .eax).toNat))) := by
  rw [int1, named]

theorem int1_of_bad {s : State} (bad : sizeOf? (s.reg .edx) = none) : int1 s = raise (.badSize (s.reg .edx)) 8 s := by
  rw [int1, bad]

/-- Settles O49: the values are the elements that `readElements` lists. -/
theorem listServiceReadsConsecutiveElements : Obligations.ListServiceReadsConsecutiveElements := by
  intro s z width
  have named : sizeOf? (s.reg .edx) = some z := width ▸ sizeOf?_code z
  refine ⟨s.readElements z (s.reg .esi) (s.reg .eax).toNat, int1_of_size named, ?_, fun k inside => ?_⟩
  · rw [State.readElements_eq_map, List.length_map, List.length_range]
  · simp only [State.readElements_eq_map, List.getElem_map, List.getElem_range, State.readMem_toNat]

/-! ## The string service -/

/-- The scan stops at the first zero byte and answers the bytes before it (R188). -/
theorem State.readString_of_first_zero (s : State) (a : Word) {fuel k : Nat} (reached : k < fuel)
    (zero : s.readByte (a + BitVec.ofNat 32 k) = 0#8) (first : ∀ j, j < k → s.readByte (a + BitVec.ofNat 32 j) ≠ 0#8) :
    s.readString a fuel = some ((List.range k).map fun j => s.readByte (a + BitVec.ofNat 32 j)) := by
  induction fuel generalizing a k with
  | zero => exact absurd reached (Nat.not_lt_zero k)
  | succ fuel ih =>
    cases k with
    | zero =>
      rw [BitVec.add_zero] at zero
      exact if_pos zero
    | succ k =>
      have nonzero : s.readByte a ≠ 0#8 := by simpa using first 0 (Nat.succ_pos k)
      have rest := ih (a + 1#32) (Nat.lt_of_succ_lt_succ reached) (add_one_add_ofNat a k ▸ zero)
        fun j before => add_one_add_ofNat a j ▸ first (j + 1) (Nat.succ_lt_succ before)
      rw [State.readString, if_neg nonzero, rest, List.range_succ_eq_map, List.map_cons, List.map_map, BitVec.add_zero]
      simp only [Option.map_some, Function.comp_def, add_one_add_ofNat, Nat.succ_eq_add_one]

/-- A scan without a result has met no zero byte. -/
theorem State.readByte_ne_zero_of_readString (s : State) (a : Word) {fuel k : Nat} (endless : s.readString a fuel = none)
    (inside : k < fuel) : s.readByte (a + BitVec.ofNat 32 k) ≠ 0#8 := by
  intro zero
  have exists_zero : ∃ j, s.readByte (a + BitVec.ofNat 32 j) = 0#8 := ⟨k, zero⟩
  have found := State.readString_of_first_zero s a ((Nat.find_min' exists_zero zero).trans_lt inside)
    (Nat.find_spec exists_zero) fun j before => Nat.find_min exists_zero before
  rw [endless] at found
  cases found

theorem int2_of_string {s : State} {bs : List Byte} (ends : s.readString (s.reg .esi) 4294967296 = some bs) :
    int2 s = .next ((s.advance 8).emit (.text bs)) := by
  rw [int2, ends]

theorem int2_of_endless {s : State} (endless : s.readString (s.reg .esi) 4294967296 = none) :
    int2 s = .fault .scanNeverEnds := by
  rw [int2, endless]

/-- The scan covers every address, so it has no result only where no byte is zero. -/
theorem readByte_ne_zero_of_endless {s : State} (endless : s.readString (s.reg .esi) 4294967296 = none) (a : Word) :
    s.readByte a ≠ 0#8 := by
  have reached : s.reg .esi + BitVec.ofNat 32 (a - s.reg .esi).toNat = a := by
    rw [BitVec.ofNat_toNat, BitVec.setWidth_eq, BitVec.add_comm, BitVec.sub_add_cancel]
  exact reached ▸ State.readByte_ne_zero_of_readString s _ endless (a - s.reg .esi).isLt

/-- Settles O50: the scan answers the bytes before the first zero, which it reaches within its 2^32 bytes. -/
theorem stringServiceStopsAtFirstZero : Obligations.StringServiceStopsAtFirstZero := fun s _ inside zero first =>
  int2_of_string (State.readString_of_first_zero s (s.reg .esi) inside zero first)

/-! ## The dump, the operands that raise, halt and no-operation -/

/-- A selector above 2 is none of the three services (R189). -/
theorem execInt_of_gt {n : Word} (above : n.toNat > 2) (s : State) : execInt n s = raise (.unknownInterrupt n) 8 s := by
  have not_service (m : Word) (small : m.toNat ≤ 2) : n ≠ m := fun same => absurd (same ▸ small) (Nat.not_le.mpr above)
  rw [execInt, if_neg (not_service 0#32 (by decide)), if_neg (not_service 1#32 (by decide)),
    if_neg (not_service 2#32 (by decide))]

/-- Settles O51: both are raises on the state before the `int`. -/
theorem badInterruptOperandsRaise : Obligations.BadInterruptOperandsRaise := by
  refine ⟨fun n s above => ?_, fun s above => ?_⟩
  · have raised : exec (.int n) s = raise (.unknownInterrupt n) 8 s := execInt_of_gt above s
    exact raised ▸ raise_raisedAndNothingElse _ _ s
  · have raised : exec (.int 1#32) s = raise (.badSize (s.reg .edx)) 8 s := int1_of_bad ((sizeOf?_eq_none_iff _).mpr above)
    exact raised ▸ raise_raisedAndNothingElse _ _ s

/-- Settles O48: each meaning is its definition, with the updates of the state written out. -/
theorem dumpHaltAndNopEffects : Obligations.DumpHaltAndNopEffects := fun _ => ⟨rfl, rfl, rfl⟩

/-! ## Power-on and register reset -/

theorem State.reset_reg {r : Reg} (other : r ≠ .esp) : State.reset.reg r = 0#32 := by
  cases r with
  | eax | ebx | ecx | edx | esi | edi | ebp => rfl
  | esp => exact absurd rfl other

/-- Settles O52: each value is read off `State.reset`; the memory lists no byte. -/
theorem powerOnValues : Obligations.PowerOnValues :=
  ⟨rfl, rfl, fun _ => State.reset_reg, rfl, rfl, rfl, rfl, fun _ => rfl, rfl, rfl⟩

/-- Settles O53: a register reset keeps the memory, the chunks and the console by its definition. -/
theorem registerResetKeepsMemoryAndConsole : Obligations.RegisterResetKeepsMemoryAndConsole := fun _ =>
  ⟨fun _ => rfl, rfl, ⟨rfl, rfl⟩, rfl, rfl, ⟨fun _ => rfl, rfl⟩, rfl⟩

/-- Settles O11: after power-on there is no listed byte and no chunk, and the machine runs. -/
theorem resetSatisfiesInvariant : Obligations.ResetSatisfiesInvariant where
  memory := State.reset_memory
  chunks := by decide
  cover := by decide
  status := by decide

end Sys2Proof.Machine
end

section
/-! SUPPORT. What an instruction can answer, said once for all 42: it raises for its first bad operand unit (30_encoding.md
R92), or for its own condition (60_exceptions.md R241), or it has one of the effects listed in `Effect`, or it is the `int 2`
whose string has no end. The rules over all instructions are read off these cases. -/

namespace Sys2Proof.Machine

/-! ## The cases -/

/-- The condition that an instruction with good operand units raises, and its case (R241). -/
inductive OwnCondition (s : State) : Instr → FatalCondition → Prop where
  | push (n : Word) (low : (s.reg .esp).toNat < 4) : OwnCondition s (.psh n) .stackOverflow
  | pushRegister (r : Reg) (low : (s.reg .esp).toNat < 4) : OwnCondition s (.pshr (.reg r)) .stackOverflow
  | call (n : Word) (low : (s.reg .esp).toNat < 4) : OwnCondition s (.call n) .stackOverflow
  | pop (r : Reg) (high : (s.reg .esp).toNat > 0xFFFFFFFB) : OwnCondition s (.pop (.reg r)) .stackUnderflow
  | ret (high : (s.reg .esp).toNat > 0xFFFFFFFB) : OwnCondition s .ret .stackUnderflow
  | divide : OwnCondition s (.div 0#32) .divideByZero
  | divideRegister (r : Reg) (zero : s.reg r = 0#32) : OwnCondition s (.divr (.reg r)) .divideByZero
  | selector (n : Word) (above : n.toNat > 2) : OwnCondition s (.int n) (.unknownInterrupt n)
  | width (above : (s.reg .edx).toNat > 2) : OwnCondition s (.int 1#32) (.badSize (s.reg .edx))

/-- The next state of an instruction that raises nothing, by what it writes besides `eip`. -/
inductive Effect (i : Instr) (s : State) : State → Prop where
  | jump (e : Word) (transfers : transfersControl i = true) : Effect i s (s.setEip e)
  | writeReg (a : Reg) (v : Word) (named : a ∈ mayWrite i) : Effect i s ((s.advance i.length).setReg a v)
  | writeTwoRegs (a b : Reg) (v w : Word) (named : a ∈ mayWrite i) (named' : b ∈ mayWrite i) :
      Effect i s (((s.advance i.length).setReg a v).setReg b w)
  | writeRegCarry (a : Reg) (r : Nat) (named : a ∈ mayWrite i) (carries : writesCf i = true) :
      Effect i s (writeWithCarry a r (s.advance i.length))
  | compare (c : CompareFlag) (compares : writesCmpf i = true) : Effect i s ((s.advance i.length).setCmpf c)
  | store (z : Size) (a v : Word) (stores : storesTo i s = some (a, z.nbytes)) :
      Effect i s ((s.advance i.length).writeMem z a v)
  | push (v : Word) (named : .esp ∈ mayWrite i) (stores : storesTo i s = some (s.reg .esp - 4#32, 4)) :
      Effect i s ((s.advance i.length).pushed v)
  | call (v e : Word) (named : .esp ∈ mayWrite i) (stores : storesTo i s = some (s.reg .esp - 4#32, 4))
      (transfers : transfersControl i = true) : Effect i s (((s.advance i.length).pushed v).setEip e)
  | ret (v e : Word) (named : .esp ∈ mayWrite i) (transfers : transfersControl i = true) :
      Effect i s (((s.advance i.length).setReg .esp v).setEip e)
  | emit (n : Word) (e : ConsoleEvent) (service : i = .int n) (small : n.toNat < 3) :
      Effect i s ((s.advance i.length).emit e)
  | halt (halts : i = .hlt) : Effect i s (s.advance i.length).halt
  | nop : Effect i s (s.advance i.length)

/-- Everything an instruction can answer. -/
inductive Answer (i : Instr) (s : State) : Result → Prop where
  | badOperand (c : FatalCondition) (n : Nat) (bad : firstBadOperand i.operands = some c) : Answer i s (raise c n s)
  | ownCondition (c : FatalCondition) (n : Nat) (good : firstBadOperand i.operands = none) (own : OwnCondition s i c) :
      Answer i s (raise c n s)
  | next (t : State) (good : firstBadOperand i.operands = none) (effect : Effect i s t) : Answer i s (.next t)
  | endless (service : i = .int 2#32) (nonzero : ∀ a : Word, s.readByte a ≠ 0#8) : Answer i s (.fault .scanNeverEnds)

/-! ## Operand units: every format of R82 is a nest of these two -/

section
variable {i : Instr} {s : State}

/-- `units` says that the units before `o` are good, `good` that `o` then is too. -/
theorem Answer.of_withReg {o : RegOperand} {us : List OperandUnit} {n : Nat} {k : Reg → Result}
    (units : firstBadOperand i.operands = firstBadOperand (.register o :: us))
    (good : ∀ r, o = .reg r → firstBadOperand i.operands = firstBadOperand us → Answer i s (k r)) :
    Answer i s (withReg o n s k) := by
  cases o with
  | reg r => exact good r rfl units
  | unknown u => exact .badOperand _ n units

theorem Answer.of_withSize {o : SizeOperand} {us : List OperandUnit} {n : Nat} {k : Size → Result}
    (units : firstBadOperand i.operands = firstBadOperand (.size o :: us))
    (good : ∀ z, o = .size z → firstBadOperand i.operands = firstBadOperand us → Answer i s (k z)) :
    Answer i s (withSize o n s k) := by
  cases o with
  | size z => exact good z rfl units
  | bad u => exact .badOperand _ n units

theorem mem_namedReg {o : RegOperand} {r : Reg} (named : o = .reg r) : r ∈ namedReg o := named ▸ .head _

theorem storeRange_of_good {sz : SizeOperand} {rm : RegOperand} {z : Size} {m : Reg} (size : sz = .size z)
    (named : rm = .reg m) : storeRange sz rm s = some (s.reg m, z.nbytes) := by
  rw [size, named]
  rfl

/-! ## The instructions with a condition of their own -/

theorem divideBy_answer (b : Word) (good : firstBadOperand i.operands = none) (eax : Reg.eax ∈ mayWrite i)
    (edx : Reg.edx ∈ mayWrite i) (length : i.length = 8) (zero : b = 0#32 → OwnCondition s i .divideByZero) :
    Answer i s (divideBy b s) := by
  by_cases b_zero : b = 0#32
  · rw [b_zero, divideBy_zero]
    exact .ownCondition _ _ good (zero b_zero)
  · rw [divideBy_of_ne_zero b_zero, ← length]
    exact .next _ good (.writeTwoRegs _ _ _ _ eax edx)

theorem pushOrOverflow_answer (v : Word) (good : firstBadOperand i.operands = none) (esp : Reg.esp ∈ mayWrite i)
    (stores : storesTo i s = some (s.reg .esp - 4#32, 4)) (length : i.length = 8)
    (overflow : (s.reg .esp).toNat < 4 → OwnCondition s i .stackOverflow) : Answer i s (pushOrOverflow v s) := by
  rcases Nat.lt_or_ge (s.reg .esp).toNat 4 with low | room
  · rw [pushOrOverflow_of_low v low]
    exact .ownCondition _ _ good (overflow low)
  · rw [pushOrOverflow_of_room v room, ← length]
    exact .next _ good (.push v esp stores)

end

theorem exec_call_answer (n : Word) (s : State) : Answer (.call n) s (exec (.call n) s) := by
  rcases Nat.lt_or_ge (s.reg .esp).toNat 4 with low | room
  · exact exec_call_of_low n low ▸ .ownCondition _ _ rfl (.call n low)
  · exact exec_call_of_room n room ▸ .next _ rfl (.call _ n (.head _) rfl rfl)

theorem exec_pop_answer (r : Reg) (s : State) : Answer (.pop (.reg r)) s (exec (.pop (.reg r)) s) := by
  rcases Nat.lt_or_ge 0xFFFFFFFB (s.reg .esp).toNat with high | something
  · exact exec_pop_of_high r high ▸ .ownCondition _ _ rfl (.pop r high)
  · exact exec_pop_of_some r something ▸ .next _ rfl (.writeTwoRegs .esp r _ _ (.head _) (.tail _ (.head _)))

theorem exec_ret_answer (s : State) : Answer .ret s (exec .ret s) := by
  rcases Nat.lt_or_ge 0xFFFFFFFB (s.reg .esp).toNat with high | something
  · exact exec_ret_of_high high ▸ .ownCondition _ _ rfl (.ret high)
  · exact exec_ret_of_some something ▸ .next _ rfl (.ret _ _ (.head _) rfl)

theorem int1_answer (s : State) : Answer (.int 1#32) s (int1 s) := by
  cases named : sizeOf? (s.reg .edx) with
  | none => exact int1_of_bad named ▸ .ownCondition _ _ rfl (.width ((sizeOf?_eq_none_iff _).mp named))
  | some z => exact int1_of_size named ▸ .next _ rfl (.emit 1#32 _ rfl (by decide))

theorem int2_answer (s : State) : Answer (.int 2#32) s (int2 s) := by
  cases string : s.readString (s.reg .esi) 4294967296 with
  | none => exact int2_of_endless string ▸ .endless rfl (readByte_ne_zero_of_endless string)
  | some bs => exact int2_of_string string ▸ .next _ rfl (.emit 2#32 _ rfl (by decide))

theorem execInt_answer (n : Word) (s : State) : Answer (.int n) s (execInt n s) := by
  rcases Nat.lt_or_ge 2 n.toNat with above | service
  · exact execInt_of_gt above s ▸ .ownCondition _ _ rfl (.selector n above)
  · obtain rfl | rfl | rfl : n = 0#32 ∨ n = 1#32 ∨ n = 2#32 := by bv_omega
    · exact .next _ rfl (.emit 0#32 _ rfl (by decide))
    · exact int1_answer s
    · exact int2_answer s

/-! ## Every instruction -/

/-- By format (R82): a bad unit raises where it stands; with good units the meaning is the update that `Effect` lists for
it, or one of the checks above. -/
theorem exec_answer (i : Instr) (s : State) : Answer i s (exec i s) := by
  cases i with
  | jmp | jg | jge | jl | jle | je | jne =>
    rw [show exec _ s = jumpIf _ _ s from rfl, jumpIf_eq]
    exact .next _ rfl (.jump _ rfl)
  | mrv | sub | and | or | xor | shr | shl | neg =>
    exact .of_withReg rfl fun a named good => .next _ good (.writeReg a _ (mem_namedReg named))
  | mrvr | subr | andr | orr | xorr | shrr | shlr =>
    exact .of_withReg rfl fun a named good => .of_withReg good fun _ _ good =>
      .next _ good (.writeReg a _ (mem_namedReg named))
  | mrva =>
    exact .of_withReg rfl fun a named good => .of_withSize good fun _ _ good => .of_withReg good fun _ _ good =>
      .next _ good (.writeReg a _ (mem_namedReg named))
  | add => exact .of_withReg rfl fun a named good => .next _ good (.writeRegCarry a _ (mem_namedReg named) rfl)
  | addr =>
    exact .of_withReg rfl fun a named good => .of_withReg good fun _ _ good =>
      .next _ good (.writeRegCarry a _ (mem_namedReg named) rfl)
  | mul => exact .next _ rfl (.writeRegCarry .eax _ (.head _) rfl)
  | mulr => exact .of_withReg rfl fun _ _ good => .next _ good (.writeRegCarry .eax _ (.head _) rfl)
  | cmp => exact .of_withReg rfl fun _ _ good => .next _ good (.compare _ rfl)
  | cmpr => exact .of_withReg rfl fun _ _ good => .of_withReg good fun _ _ good => .next _ good (.compare _ rfl)
  | cmpa =>
    exact .of_withReg rfl fun _ _ good => .of_withSize good fun _ _ good => .of_withReg good fun _ _ good =>
      .next _ good (.compare _ rfl)
  | mav =>
    exact .of_withSize rfl fun z size good => .of_withReg good fun _ named good =>
      .next _ good (.store z _ _ (storeRange_of_good size named))
  | mavr =>
    exact .of_withSize rfl fun z size good => .of_withReg good fun _ named good => .of_withReg good fun _ _ good =>
      .next _ good (.store z _ _ (storeRange_of_good size named))
  | div n => exact divideBy_answer n rfl (.head _) (.tail _ (.head _)) rfl fun zero => zero ▸ .divide
  | divr ra => exact .of_withReg rfl fun r named good =>
      divideBy_answer _ good (.head _) (.tail _ (.head _)) rfl fun zero => named ▸ .divideRegister r zero
  | psh n => exact pushOrOverflow_answer n rfl (.head _) rfl rfl (.push n)
  | pshr ra => exact .of_withReg rfl fun r named good =>
      pushOrOverflow_answer _ good (.head _) rfl rfl fun low => named ▸ .pushRegister r low
  | pop ra => cases ra with
    | unknown => exact .badOperand _ _ rfl
    | reg r => exact exec_pop_answer r s
  | call n => exact exec_call_answer n s
  | ret => exact exec_ret_answer s
  | int n => exact execInt_answer n s
  | hlt => exact .next _ rfl (.halt rfl)
  | nop => exact .next _ rfl .nop

end Sys2Proof.Machine
end

section
/-! SUPPORT. Encoding and decoding (30_encoding.md R80 to R90): units and the bytes that spell them, operands and their units,
instructions and their units, and from these that the decoder and the encoder are inverse to each other. -/

namespace Sys2Proof

/-! ## Units and bytes -/

@[simp] theorem unitBytes_length (u : Word) : (unitBytes u).length = 4 := rfl

theorem unitOf_unitBytes_append (u : Word) (bs : List Byte) : unitOf (unitBytes u ++ bs) = u := by
  rw [unitOf, List.take_left' (unitBytes_length u), bigEndian_unitBytes, BitVec.ofNat_toNat, BitVec.setWidth_eq]

/-- Lists of equally many bytes with the same value are the same list. -/
theorem eq_of_bigEndian_eq {bs cs : List Byte} (lengths : bs.length = cs.length) (values : bigEndian bs = bigEndian cs) :
    bs = cs := by
  induction bs using List.reverseRecOn generalizing cs with
  | nil => exact (List.length_eq_zero_iff.mp lengths.symm).symm
  | append_singleton bs b ih =>
    obtain rfl | ⟨cs, c, rfl⟩ := cs.eq_nil_or_concat'
    · simp at lengths
    · have hb : b.toNat < 256 := b.isLt
      have hc : c.toNat < 256 := c.isLt
      rw [bigEndian_concat, bigEndian_concat] at values
      rw [List.length_append, List.length_append, List.length_singleton, List.length_singleton] at lengths
      rw [ih (by omega) (by omega : bigEndian bs = bigEndian cs), BitVec.eq_of_toNat_eq (by omega : b.toNat = c.toNat)]

/-- The unit spelled by four bytes has these four bytes. -/
theorem unitBytes_unitOf {bs : List Byte} (enough : 4 ≤ bs.length) : unitBytes (unitOf bs) = bs.take 4 := by
  have four : (bs.take 4).length = 4 := List.length_take_of_le enough
  have below : bigEndian (bs.take 4) < 2 ^ 32 := by
    have bound := bigEndian_lt (bs.take 4)
    rwa [four] at bound
  refine eq_of_bigEndian_eq four.symm ?_
  rw [bigEndian_unitBytes, unitOf, BitVec.toNat_ofNat, Nat.mod_eq_of_lt below]

/-- The first `n` units of a list of bytes. -/
def unitsOf : Nat → List Byte → List Word
  | 0, _ => []
  | n + 1, bs => unitOf bs :: unitsOf n (bs.drop 4)

/-- The three operand units that the decoder takes from a list of bytes. -/
theorem unitsOf_three (bs : List Byte) :
    unitsOf 3 (bs.drop 4) = [unitOf (bs.drop 4), unitOf (bs.drop 8), unitOf (bs.drop 12)] := by
  simp only [unitsOf, List.drop_drop]

theorem take_unitsOf {m n : Nat} (bs : List Byte) (le : m ≤ n) : (unitsOf n bs).take m = unitsOf m bs := by
  induction m generalizing n bs with
  | zero => rfl
  | succ m ih =>
    cases n with
    | zero => exact absurd le (Nat.not_succ_le_zero m)
    | succ n => rw [unitsOf, unitsOf, List.take_succ_cons, ih _ (Nat.le_of_succ_le_succ le)]

/-- Units laid out as bytes read back first, whatever follows. -/
theorem isPrefix_unitsOf {us : List Word} {n : Nat} (rest : List Byte) (le : us.length ≤ n) :
    us <+: unitsOf n (us.flatMap unitBytes ++ rest) := by
  induction us generalizing n with
  | nil => exact List.nil_prefix
  | cons u us ih =>
    cases n with
    | zero => exact absurd le (Nat.not_succ_le_zero _)
    | succ n =>
      rw [List.flatMap_cons, List.append_assoc, unitsOf, unitOf_unitBytes_append, List.drop_left' (unitBytes_length u)]
      exact List.cons_prefix_cons.mpr ⟨rfl, ih (Nat.le_of_succ_le_succ le)⟩

/-- The first units of a list of bytes, laid out again, are its first bytes. -/
theorem flatMap_unitsOf {n : Nat} {bs : List Byte} (enough : 4 * n ≤ bs.length) :
    (unitsOf n bs).flatMap unitBytes = bs.take (4 * n) := by
  induction n generalizing bs with
  | zero => rfl
  | succ n ih =>
    rw [unitsOf, List.flatMap_cons, unitBytes_unitOf (by omega), ih (by rw [List.length_drop]; omega), Nat.mul_succ,
      Nat.add_comm, List.take_add]

/-! ## Operands and their units -/

theorem registerOperand_unit {o : RegOperand} (wf : o.wellFormed = true) : registerOperand o.unit = o := by
  cases o with
  | reg r => rw [registerOperand, RegOperand.unit, regOf_unit]
  | unknown u => rw [registerOperand, RegOperand.unit, Option.isNone_iff_eq_none.mp wf]

theorem sizeOperand_unit {o : SizeOperand} (wf : o.wellFormed = true) : sizeOperand o.unit = o := by
  cases o with
  | size z => rw [sizeOperand, SizeOperand.unit, Machine.sizeOf?_code]
  | bad u => rw [sizeOperand, SizeOperand.unit, Option.isNone_iff_eq_none.mp wf]

@[simp] theorem unit_registerOperand (u : Word) : (registerOperand u).unit = u := by
  cases named : regOf u with
  | none => rw [registerOperand, named, RegOperand.unit]
  | some r =>
    have found := List.find?_some named
    rw [registerOperand, named, RegOperand.unit, eq_of_beq found]

@[simp] theorem unit_sizeOperand (u : Word) : (sizeOperand u).unit = u := by
  cases named : sizeOf? u with
  | none => rw [sizeOperand, named, SizeOperand.unit]
  | some z => rw [sizeOperand, named, SizeOperand.unit, Machine.eq_code_of_sizeOf? named]

@[simp] theorem registerOperand_wellFormed (u : Word) : (registerOperand u).wellFormed = true := by
  cases named : regOf u with
  | none => rw [registerOperand, named, RegOperand.wellFormed, named, Option.isNone_none]
  | some r => rw [registerOperand, named, RegOperand.wellFormed]

@[simp] theorem sizeOperand_wellFormed (u : Word) : (sizeOperand u).wellFormed = true := by
  cases named : sizeOf? u with
  | none => rw [sizeOperand, named, SizeOperand.wellFormed, named, Option.isNone_none]
  | some z => rw [sizeOperand, named, SizeOperand.wellFormed]

/-! ## Instructions and their units -/

/-- An instruction has one opcode unit and its operand units, four bytes each (R82, R83). -/
theorem Instr.length_eq (i : Instr) : i.length = 4 * (1 + i.operands.length) := by cases i <;> rfl

theorem encodeBytes_length_eq (i : Instr) : (encodeBytes i).length = i.length := by
  rw [Laws.encodeBytes_length, Instr.length_eq]

theorem Instr.operands_length_le (i : Instr) : i.operands.length ≤ 3 := by
  cases i <;> simp [Instr.operands]

@[simp] theorem Opcode.instr_opcode (o : Opcode) (u1 u2 u3 : Word) : (o.instr u1 u2 u3).opcode = o := by cases o <;> rfl

theorem Opcode.instr_wellFormed (o : Opcode) (u1 u2 u3 : Word) : (o.instr u1 u2 u3).wellFormed = true := by
  cases o <;> simp [Opcode.instr, Instr.wellFormed, Instr.operands, OperandUnit.wellFormed]

/-- The operand units of the instruction that the decoder builds are those it was given, as many as there are (R82). -/
theorem Opcode.instr_units (o : Opcode) (u1 u2 u3 : Word) :
    (o.instr u1 u2 u3).operands.map OperandUnit.unit = [u1, u2, u3].take (o.instr u1 u2 u3).operands.length := by
  cases o <;> simp [Opcode.instr, Instr.operands, OperandUnit.unit]

/-- The decoder gives an instruction back from units that begin with its own: each operand of a well-formed instruction is
the one its unit decodes to. -/
theorem instr_of_units {i : Instr} {u1 u2 u3 : Word} (wf : i.wellFormed = true)
    (units : i.operands.map OperandUnit.unit <+: [u1, u2, u3]) : i.opcode.instr u1 u2 u3 = i := by
  cases i with
  | ret | hlt | nop => rfl
  | _ =>
    simp only [Instr.operands, List.map, List.cons_prefix_cons, List.nil_prefix, and_true, OperandUnit.unit] at units
    simp only [Instr.wellFormed, Instr.operands, List.all, OperandUnit.wellFormed, Bool.and_true, Bool.and_eq_true] at wf
    simp only [Instr.opcode, Opcode.instr, ← units, registerOperand_unit, sizeOperand_unit, wf]

/-! ## Decoding -/

/-- What it means that a list of bytes decodes. -/
theorem decode_eq_ok_iff {bs rest : List Byte} {i : Instr} :
    decode bs = .ok (i, rest) ↔
      ∃ o : Opcode, opcodeOf (unitOf bs) = some o ∧ o.length ≤ bs.length ∧
        o.instr (unitOf (bs.drop 4)) (unitOf (bs.drop 8)) (unitOf (bs.drop 12)) = i ∧ bs.drop o.length = rest := by
  have four_le (o : Opcode) : 4 ≤ o.length := by cases o <;> decide
  rw [decode]
  split
  next short =>
    simp only [reduceCtorEq, false_iff]
    rintro ⟨o, -, long, -⟩
    exact absurd (four_le o) (by omega)
  next =>
    split
    next unknown => simp [unknown]
    next o known =>
      split
      next short => simp [known, Nat.not_le.mpr short]
      next long => simp [known, Nat.not_lt.mp long]

/-- Settles O1: the opcode unit selects the instruction's opcode, and the units after it are the instruction's own. -/
theorem decodeOfEncodeIsIdentity : Obligations.DecodeOfEncodeIsIdentity := by
  intro i rest wf
  have after_opcode : (encodeBytes i ++ rest).drop 4 = (i.operands.map OperandUnit.unit).flatMap unitBytes ++ rest :=
    List.drop_left' (unitBytes_length i.opcode.matchValue)
  refine decode_eq_ok_iff.mpr ⟨i.opcode, ?_, ?_, instr_of_units wf ?_, ?_⟩
  · rw [encodeBytes, encode, List.flatMap_cons, List.append_assoc, unitOf_unitBytes_append, opcodeOf_matchValue]
  · rw [List.length_append, encodeBytes_length_eq]
    exact Nat.le_add_right _ _
  · rw [← unitsOf_three, after_opcode]
    exact isPrefix_unitsOf rest ((List.length_map _).trans_le i.operands_length_le)
  · exact List.drop_left' (encodeBytes_length_eq i)

/-- Settles O2: the opcode unit and the units that the decoder reads are the instruction's own, and their bytes are those it
consumes. -/
theorem encodeOfDecodeIsIdentity : Obligations.EncodeOfDecodeIsIdentity := by
  intro bs i rest decoded
  obtain ⟨o, known, enough, rfl, rfl⟩ := decode_eq_ok_iff.mp decoded
  refine ⟨?_, Opcode.instr_wellFormed _ _ _ _⟩
  set i := o.instr (unitOf (bs.drop 4)) (unitOf (bs.drop 8)) (unitOf (bs.drop 12)) with built
  have length : o.length = 4 * (i.operands.length + 1) := by
    rw [Nat.add_comm, ← Instr.length_eq, Instr.length, Opcode.instr_opcode]
  have units : encode i = unitsOf (i.operands.length + 1) bs := by
    rw [encode, unitsOf, (opcodeOf_eq_some_iff _ _).mp known, ← take_unitsOf _ i.operands_length_le, unitsOf_three,
      Opcode.instr_units, Opcode.instr_opcode]
  rw [encodeBytes, units, flatMap_unitsOf (length ▸ enough), ← length, List.take_append_drop]

/-- Settles O5: the five words are encodings of well-formed instructions. -/
theorem sampleEncodingsDecode : Obligations.SampleEncodingsDecode :=
  ⟨decodeOfEncodeIsIdentity .hlt [] rfl, decodeOfEncodeIsIdentity (.jmp 0x8000000C#32) [] rfl,
    decodeOfEncodeIsIdentity (.pshr (.reg .ebx)) [] rfl, decodeOfEncodeIsIdentity (.addr (.reg .eax) (.reg .ecx)) [] rfl,
    decodeOfEncodeIsIdentity (.mavr (.size .word) (.reg .ebx) (.reg .ecx)) [] rfl⟩

end Sys2Proof
end

section
/-! SUPPORT. The rules over all instructions, read off the cases of `Answer`: what each `Effect` leaves unchanged, and what
each raise does. -/

namespace Sys2Proof.Machine

/-! ## What each effect leaves unchanged -/

section
variable {i : Instr} {s t : State}

theorem Effect.sameRegs (effect : Effect i s t) : SameRegsExcept (mayWrite i) s t := by
  have unnamed {a q : Reg} (named : a ∈ mayWrite i) (outside : q ∉ mayWrite i) : q ≠ a :=
    (ne_of_mem_of_not_mem named outside).symm
  intro q outside
  cases effect with
  | jump | compare | emit | halt | nop => rfl
  | store => exact State.writeMem_reg _ _ _ _ _
  | writeReg a v named => exact State.reg_setReg_ne _ v (unnamed named outside)
  | writeTwoRegs a b v w named named' =>
    rw [State.reg_setReg_ne _ w (unnamed named' outside), State.reg_setReg_ne _ v (unnamed named outside), State.advance_reg]
  | writeRegCarry a r named => exact State.reg_setReg_ne _ _ (unnamed named outside)
  | push v named => exact (State.pushed_pushes _ v).regs q (List.mem_singleton.not.mpr (unnamed named outside))
  | call v e named => exact ((State.pushed_pushes _ v).setEip e).regs q (List.mem_singleton.not.mpr (unnamed named outside))
  | ret v e named => exact State.reg_setReg_ne _ v (unnamed named outside)

theorem Effect.cmpf_eq (effect : Effect i s t) (other : writesCmpf i = false) : t.cmpf = s.cmpf := by
  cases effect with
  | compare c compares => exact absurd (compares.symm.trans other) (by decide)
  | store => exact State.writeMem_cmpf _ _ _ _
  | push v => exact State.pushed_cmpf _ v
  | call v e => exact (State.setEip_cmpf _ e).trans (State.pushed_cmpf _ v)
  | jump | writeReg | writeTwoRegs | writeRegCarry | ret | emit | halt | nop => rfl

theorem Effect.cf_eq (effect : Effect i s t) (other : writesCf i = false) : t.cf = s.cf := by
  cases effect with
  | writeRegCarry a r named carries => exact absurd (carries.symm.trans other) (by decide)
  | store => exact State.writeMem_cf _ _ _ _
  | push v => exact State.pushed_cf _ v
  | call v e => exact (State.setEip_cf _ e).trans (State.pushed_cf _ v)
  | jump | writeReg | writeTwoRegs | compare | ret | emit | halt | nop => rfl

theorem Effect.fatal_eq (effect : Effect i s t) : t.fatal = s.fatal := by
  cases effect with
  | store => exact State.writeMem_fatal _ _ _ _
  | push v => exact State.pushed_fatal _ v
  | call v e => exact (State.setEip_fatal _ e).trans (State.pushed_fatal _ v)
  | jump | writeReg | writeTwoRegs | writeRegCarry | compare | ret | emit | halt | nop => rfl

theorem Effect.halted_eq (effect : Effect i s t) : t.halted = s.halted ∨ i = .hlt ∧ t.halted = true := by
  cases effect with
  | halt halts => exact .inr ⟨halts, rfl⟩
  | store => exact .inl (State.writeMem_halted _ _ _ _)
  | push v => exact .inl (State.pushed_halted _ v)
  | call v e => exact .inl ((State.setEip_halted _ e).trans (State.pushed_halted _ v))
  | jump | writeReg | writeTwoRegs | writeRegCarry | compare | ret | emit | nop => exact .inl rfl

theorem Effect.console_eq (effect : Effect i s t) :
    t.console = s.console ∨ ∃ (n : Word) (e : ConsoleEvent), i = .int n ∧ n.toNat < 3 ∧ t.console = s.console ++ [e] := by
  cases effect with
  | emit n e service small => exact .inr ⟨n, e, service, small, rfl⟩
  | store => exact .inl (State.writeMem_console _ _ _ _)
  | push v => exact .inl (State.pushed_console _ v)
  | call v e => exact .inl ((State.setEip_console _ e).trans (State.pushed_console _ v))
  | jump | writeReg | writeTwoRegs | writeRegCarry | compare | ret | halt | nop => exact .inl rfl

theorem Effect.memory (effect : Effect i s t) :
    SameMemory s t ∨ ∃ a n, storesTo i s = some (a, n) ∧ SameMemoryExcept a n s t := by
  cases effect with
  | store z a v stores => exact .inr ⟨a, z.nbytes, stores, (s.advance i.length).writeMem_frame z a v⟩
  | push v named stores => exact .inr ⟨_, 4, stores, (State.pushed_pushes (s.advance i.length) v).stores.2⟩
  | call v e named stores => exact .inr ⟨_, 4, stores, ((State.pushed_pushes (s.advance i.length) v).setEip e).stores.2⟩
  | jump | writeReg | writeTwoRegs | writeRegCarry | compare | ret | emit | halt | nop => exact .inl ⟨fun _ => rfl, rfl⟩

theorem Effect.eip_eq (effect : Effect i s t) (stays : transfersControl i = false) :
    t.eip = s.eip + BitVec.ofNat 32 i.length := by
  cases effect with
  | jump e transfers => exact absurd (transfers.symm.trans stays) (by decide)
  | call v e named stores transfers => exact absurd (transfers.symm.trans stays) (by decide)
  | ret v e named transfers => exact absurd (transfers.symm.trans stays) (by decide)
  | store => exact State.writeMem_eip _ _ _ _
  | push => exact State.pushed_eip _ _
  | writeReg | writeTwoRegs | writeRegCarry | compare | emit | halt | nop => rfl

theorem MemoryInv.pushed (inv : MemoryInv s) (v : Word) : MemoryInv (s.pushed v) := by
  have lowered : MemoryInv (s.setReg .esp (s.reg .esp - 4#32)) := inv.congr rfl rfl
  exact lowered.writeMem .dword _ v

/-- Only `MemWrite` touches the memory, and it keeps the memory part of the invariant. -/
theorem Effect.memoryInv (effect : Effect i s t) (inv : MemoryInv s) : MemoryInv t := by
  have advanced : MemoryInv (s.advance i.length) := inv.congr rfl rfl
  cases effect with
  | store z a v => exact advanced.writeMem z a v
  | push v => exact advanced.pushed v
  | call v e => exact (advanced.pushed v).congr (State.setEip_mem _ e) (State.setEip_chunks _ e)
  | jump | writeReg | writeTwoRegs | writeRegCarry | compare | ret | emit | halt | nop => exact inv.congr rfl rfl

/-! ## An instruction that answers a next state -/

/-- It raised for one of its operand units or for its own condition, or it had one of the effects. -/
theorem exec_next (h : exec i s = .next t) :
    (∃ c n, (firstBadOperand i.operands = some c ∨ firstBadOperand i.operands = none ∧ OwnCondition s i c) ∧
        raise c n s = .next t) ∨
      firstBadOperand i.operands = none ∧ Effect i s t := by
  have answer := exec_answer i s
  generalize exec i s = r at h answer
  cases answer with
  | badOperand c n bad => exact .inl ⟨c, n, .inl bad, h⟩
  | ownCondition c n good own => exact .inl ⟨c, n, .inr ⟨good, own⟩, h⟩
  | next u good effect => exact .inr ⟨good, Host.Outcome.next.inj h ▸ effect⟩
  | endless => cases h

/-- The same without the reason of the raise. -/
theorem exec_raises_or_effect (h : exec i s = .next t) : (∃ c, RaisedAndNothingElse c s t) ∨ Effect i s t := by
  rcases exec_next h with ⟨c, n, -, raised⟩ | ⟨-, effect⟩
  · exact .inl ⟨c, (raise_spec raised).1⟩
  · exact .inr effect

end

/-- Settles O15: `Answer` has no other fault and no refusal. -/
theorem everyInstructionAnswersNextState : Obligations.EveryInstructionAnswersNextState := by
  intro i s
  have answer := exec_answer i s
  generalize exec i s = r at answer ⊢
  cases answer with
  | badOperand | ownCondition | next => exact .inl ⟨_, rfl⟩
  | endless service nonzero => exact .inr ⟨service, rfl, nonzero⟩

/-- Settles O16: a raise writes no register, and an effect only named ones. -/
theorem registersWrittenOnlyWhereNamed : Obligations.RegistersWrittenOnlyWhereNamed := by
  intro i s t h q outside
  rcases exec_raises_or_effect h with ⟨c, -, regs, -⟩ | effect
  · exact regs q List.not_mem_nil
  · exact effect.sameRegs q outside

/-- Settles O17: a raise writes no flag, and only a compare or a carry is an effect on one. -/
theorem flagsWrittenOnlyByTheirInstructions : Obligations.FlagsWrittenOnlyByTheirInstructions := by
  intro i s t h
  rcases exec_raises_or_effect h with ⟨c, -, -, ⟨cmpf, cf⟩, -⟩ | effect
  · exact ⟨fun _ => cmpf, fun _ => cf⟩
  · exact ⟨effect.cmpf_eq, effect.cf_eq⟩

/-- Settles O18: where nothing is written, nothing is written outside the range either. -/
theorem memoryWrittenOnlyByStores : Obligations.MemoryWrittenOnlyByStores := by
  intro i s t h
  have written : SameMemory s t ∨ ∃ a n, storesTo i s = some (a, n) ∧ SameMemoryExcept a n s t := by
    rcases exec_raises_or_effect h with ⟨c, -, -, -, memory, -⟩ | effect
    · exact .inl memory
    · exact effect.memory
  rcases written with same | ⟨a, n, stores, outside⟩
  · split
    · exact fun b _ => same.1 b
    · exact same
  · rw [stores]
    exact outside

/-- Settles O19: a raise leaves latch and console, and only `halt` and `emit` are effects on them. -/
theorem latchAndConsoleWrittenOnlyByTheirInstructions : Obligations.LatchAndConsoleWrittenOnlyByTheirInstructions := by
  intro i s t h
  rcases exec_raises_or_effect h with ⟨c, -, -, -, -, console, halted⟩ | effect
  · exact ⟨fun changed => absurd halted changed, .inl console⟩
  · exact ⟨fun changed => effect.halted_eq.resolve_left changed, effect.console_eq⟩

/-- Settles O20: a raise would leave a fatal condition, and the other answers move `eip` by the encoded length. -/
theorem eipMovesPastTheEncoding : Obligations.EipMovesPastTheEncoding := by
  intro i s t _ h unraised stays
  rcases exec_raises_or_effect h with ⟨c, raised, -⟩ | effect
  · exact nomatch raised.symm.trans unraised
  · rw [encodeBytes_length_eq]
    exact effect.eip_eq stays

/-- Settles O22: with a bad unit the only answer is the raise for the first one. -/
theorem firstBadOperandIsReported : Obligations.FirstBadOperandIsReported := by
  intro i s c bad
  have answer := exec_answer i s
  generalize exec i s = r at answer ⊢
  cases answer with
  | badOperand c' n bad' =>
    obtain rfl : c' = c := Option.some.inj (bad'.symm.trans bad)
    exact raise_raisedAndNothingElse c' n s
  | ownCondition _ _ good | next _ good => exact nomatch good.symm.trans bad
  | endless service =>
    rw [service] at bad
    exact nomatch bad

/-- Settles O23: with good units a raise is for the instruction's own condition, whose cases are those of R241. -/
theorem goodOperandsRaiseOnlyOwnCondition : Obligations.GoodOperandsRaiseOnlyOwnCondition := by
  intro i s t c good unraised h faulted
  rcases exec_next h with ⟨c', n, reason, raised⟩ | ⟨-, effect⟩
  · obtain rfl : c' = c := Option.some.inj ((raise_spec raised).1.1.symm.trans faulted)
    have own : OwnCondition s i c' := (reason.resolve_left (by simp [good])).2
    cases own with
    | push n low => exact .inl ⟨rfl, low, .inl ⟨n, rfl⟩⟩
    | pushRegister r low => exact .inl ⟨rfl, low, .inr (.inl ⟨r, rfl⟩)⟩
    | call n low => exact .inl ⟨rfl, low, .inr (.inr ⟨n, rfl⟩)⟩
    | pop r high => exact .inr (.inl ⟨rfl, high, .inl ⟨r, rfl⟩⟩)
    | ret high => exact .inr (.inl ⟨rfl, high, .inr rfl⟩)
    | divide => exact .inr (.inr (.inl ⟨rfl, .inl rfl⟩))
    | divideRegister r zero => exact .inr (.inr (.inl ⟨rfl, .inr ⟨r, rfl, zero⟩⟩))
    | selector n above => exact .inr (.inr (.inr (.inl ⟨n, rfl, rfl, above⟩)))
    | width above => exact .inr (.inr (.inr (.inr ⟨rfl, rfl, above⟩)))
  · rw [effect.fatal_eq, unraised] at faulted
    exact nomatch faulted

end Sys2Proof.Machine
end

section
/-! SUPPORT. The step, the run and the host's operations (60_exceptions.md R254, R255, 70_reset_and_hazards.md R271 to R274):
what is fetched at `eip`, that a running machine always goes on, and that the invariant is kept. -/

namespace Sys2Proof.Machine

/-! ## Fetching -/

/-- The units that the decoder reads in the fetched bytes are the units at `eip` (R84). -/
theorem unitOf_fetchBytes_drop (s : State) {k : Nat} (inside : k + 4 ≤ 16) : unitOf (s.fetchBytes.drop k) = s.unitAt k := by
  have same_bytes : (s.fetchBytes.drop k).take 4 = s.readBytes (s.eip + BitVec.ofNat 32 k) 4 := by
    refine List.ext_getElem ?_ fun j _ _ => ?_
    · simp only [State.fetchBytes, State.readBytes_length, List.length_take, List.length_drop]
      omega
    · simp only [State.fetchBytes, State.readBytes_eq_map, List.getElem_take, List.getElem_drop, List.getElem_map,
        List.getElem_range, BitVec.add_assoc, BitVec.ofNat_add]
  rw [unitOf, same_bytes]
  rfl

/-- Fetching decodes the bytes at `eip`. -/
theorem fetchInstr_of_decode {s : State} {i : Instr} {rest : List Byte} (decoded : decode s.fetchBytes = .ok (i, rest)) :
    fetchInstr s = .ok i := by
  obtain ⟨o, known, -, built, -⟩ := decode_eq_ok_iff.mp decoded
  have first := unitOf_fetchBytes_drop s (k := 0) (by decide)
  rw [List.drop_zero] at first
  rw [unitOf_fetchBytes_drop s (by decide), unitOf_fetchBytes_drop s (by decide),
    unitOf_fetchBytes_drop s (by decide)] at built
  simp only [fetchInstr, decodeUnits, ← first, known, built]

/-- The operand unit of a fetched `int` stands at `eip + 4`. -/
theorem unitAt_four_of_fetch_int {s : State} {n : Word} (fetched : fetchInstr s = .ok (.int n)) : s.unitAt 4 = n := by
  rw [fetchInstr, decodeUnits] at fetched
  split at fetched
  next o known =>
    have built := Except.ok.inj fetched
    obtain rfl : o = .int := (Opcode.instr_opcode o _ _ _).symm.trans (congrArg Instr.opcode built)
    exact Instr.int.inj built
  next => cases fetched

/-! ## The step -/

theorem step_of_ok {s : State} {i : Instr} (running : s.runStatus = .running) (fetched : fetchInstr s = .ok i) :
    step s = exec i s := by
  simp only [step, running, fetched]

theorem step_of_error {s : State} {u : Word} (running : s.runStatus = .running) (fetched : fetchInstr s = .error u) :
    step s = unrecognisedOpcode Config.unknownOpcodePolicy u s := by
  simp only [step, running, fetched]

/-- Settles O6: the step fetches what the bytes at `eip` decode to. -/
theorem stepRunsDecodedInstruction : Obligations.StepRunsDecodedInstruction := fun _ _ _ running decoded =>
  step_of_ok running (fetchInstr_of_decode decoded)

/-- Settles O7: the step looks at the run status first. -/
theorem haltedOrFaultedMachineHasNoStep : Obligations.HaltedOrFaultedMachineHasNoStep := by
  refine fun s => ⟨fun halted => ?_, fun c faulted => ?_⟩
  · simp only [step, halted]
  · simp only [step, faulted]

/-- Settles O8: the unit at `eip` selects no opcode, so the step is `unrecognisedOpcode`, whichever policy is in force. -/
theorem unrecognisedOpcodeFollowsPolicy : Obligations.UnrecognisedOpcodeFollowsPolicy := by
  intro s running unknown
  have unit : s.unitAt 0 = BitVec.ofNat 32 (loadedValue s .dword s.eip) := by
    rw [State.unitAt, BitVec.add_zero, State.readMem_eq_ofNat_loadedValue]
  have fetched : fetchInstr s = .error (BitVec.ofNat 32 (loadedValue s .dword s.eip)) := by
    simp only [fetchInstr, decodeUnits, unit, unknown]
  rw [step_of_error running fetched]
  generalize Config.unknownOpcodePolicy = policy
  cases policy with
  | fault => exact raise_raisedAndNothingElse _ _ s
  | nop => rfl

/-- A fetched `int 2` has a zero byte in memory: the first byte of its own operand unit (R188). -/
theorem readByte_eq_zero_of_fetch_int_two {s : State} (fetched : fetchInstr s = .ok (.int 2#32)) :
    s.readByte (s.eip + 4#32) = 0#8 := by
  have value : loadedValue s .dword (s.eip + 4#32) = 2 := by
    rw [← State.readMem_toNat]
    exact congrArg BitVec.toNat (unitAt_four_of_fetch_int fetched)
  refine BitVec.eq_of_toNat_eq ?_
  rw [loadedValue] at value
  show (s.readByte (s.eip + 4#32)).toNat = 0
  omega

/-- Settles O9: the only answer without a next state is that of `int 2` on a memory without a zero byte, and there no `int 2`
can be fetched. -/
theorem runningMachineAlwaysHasNextStep : Obligations.RunningMachineAlwaysHasNextStep := by
  intro s running
  cases fetched : fetchInstr s with
  | error u =>
    rw [step_of_error running fetched]
    cases Config.unknownOpcodePolicy with
    | fault | nop => exact ⟨_, rfl⟩
  | ok i =>
    rw [step_of_ok running fetched]
    rcases everyInstructionAnswersNextState i s with next | ⟨rfl, -, nonzero⟩
    · exact next
    · exact absurd (readByte_eq_zero_of_fetch_int_two fetched) (nonzero _)

/-! ## The invariant along steps and runs -/

theorem State.Inv.memoryInv {s : State} (inv : s.Inv) : MemoryInv s := ⟨inv.memory, inv.chunks, inv.cover⟩

theorem MemoryInv.inv {s : State} (mem : MemoryInv s) (status : ¬(s.halted = true ∧ s.fatal.isSome = true)) : s.Inv :=
  ⟨mem.memory, mem.chunks, mem.cover, status⟩

/-- A raise by a machine whose latch is clear keeps the invariant. -/
theorem State.Inv.of_raise {s t : State} {c : FatalCondition} {n : Nat} (inv : s.Inv) (unlatched : s.halted = false)
    (raised : raise c n s = .next t) : t.Inv := by
  obtain rfl := raise_next_iff.mp raised
  exact MemoryInv.inv (inv.memoryInv.congr rfl rfl) fun both => absurd (unlatched.symm.trans both.1) (by decide)

/-- A state whose memory part of the invariant holds and that carries no fatal condition meets the invariant. -/
theorem MemoryInv.inv_of_unraised {s : State} (mem : MemoryInv s) (unraised : s.fatal = none) : s.Inv :=
  mem.inv fun both => absurd (unraised ▸ both.2) (by decide)

/-- Settles O10: the machine that steps is neither halted nor faulted; an effect keeps the memory part and raises nothing, a
raise leaves the memory and the latch. -/
theorem stepKeepsInvariant : Obligations.StepKeepsInvariant := by
  intro s t inv h
  obtain ⟨running, meaning⟩ := step_next h
  obtain ⟨unlatched, unraised⟩ := (State.runStatus_running_iff s).mp running
  rcases meaning with ⟨i, -, h⟩ | ⟨u, -, h⟩
  · rcases exec_next h with ⟨c, n, -, raised⟩ | ⟨-, effect⟩
    · exact inv.of_raise unlatched raised
    · exact (effect.memoryInv inv.memoryInv).inv_of_unraised (effect.fatal_eq.trans unraised)
  · rcases unrecognisedOpcode_next h with ⟨-, rfl⟩ | ⟨-, raised⟩
    · exact (inv.memoryInv.congr (t := s.advance 4) rfl rfl).inv_of_unraised unraised
    · exact inv.of_raise unlatched raised

/-- A state without a next one ends the run. -/
theorem runFor_of_stuck {s : State} (stuck : ∀ t, step s ≠ .next t) (m : Nat) : runFor m s = s := by
  cases m with
  | zero => rfl
  | succ m =>
    rw [runFor]
    split
    next t h => exact absurd h (stuck t)
    next => rfl
    next => rfl

theorem runFor_add (n m : Nat) (s : State) : runFor (n + m) s = runFor m (runFor n s) := by
  induction n generalizing s with
  | zero => rw [Nat.zero_add, runFor]
  | succ n ih =>
    rw [Nat.succ_add, runFor, runFor]
    split
    next t h => exact ih t
    next r h => exact (runFor_of_stuck (by simp [h]) m).symm
    next r h => exact (runFor_of_stuck (by simp [h]) m).symm

theorem runFor_inv (n : Nat) {s : State} (inv : s.Inv) : (runFor n s).Inv := by
  induction n generalizing s with
  | zero => exact inv
  | succ n ih =>
    rw [runFor]
    split
    next t h => exact ih (stepKeepsInvariant s t inv h)
    next => exact inv
    next => exact inv

/-- Settles O13: the steps keep the invariant, and a state that is not running has no next one. -/
theorem runsKeepInvariantAndStayOver : Obligations.RunsKeepInvariantAndStayOver := by
  refine fun s n => ⟨runFor_inv n, fun ended m => ?_⟩
  rw [runFor_add, runFor_of_stuck fun t h => ended (step_next h).1]

/-! ## The host's operations -/

/-- A load is `writeBytes` on the chunks that R272 begins with. -/
theorem State.loadAt_eq (s : State) (a : Word) (bs : List Byte) :
    s.loadAt a bs =
      State.writeBytes { s with chunks := if s.chunks.isEmpty then loadedChunk a bs.length else s.chunks } a bs := by
  rw [State.loadAt]
  split <;> rfl

@[simp] theorem State.loadAt_eip (s : State) (a : Word) (bs : List Byte) : (s.loadAt a bs).eip = s.eip := by
  rw [State.loadAt_eq, State.writeBytes_eip]
@[simp] theorem State.loadAt_halted (s : State) (a : Word) (bs : List Byte) : (s.loadAt a bs).halted = s.halted := by
  rw [State.loadAt_eq, State.writeBytes_halted]
@[simp] theorem State.loadAt_fatal (s : State) (a : Word) (bs : List Byte) : (s.loadAt a bs).fatal = s.fatal := by
  rw [State.loadAt_eq, State.writeBytes_fatal]

theorem State.loadAt_readBytes (s : State) (a : Word) (bs : List Byte) (fits : bs.length ≤ 2 ^ 32) :
    (s.loadAt a bs).readBytes a bs.length = bs := by
  rw [State.loadAt_eq, State.readBytes_writeBytes _ a bs fits]

theorem load_eq_some_iff {s t : State} {p : List Byte} :
    s.load p = some t ↔ p.length ≤ 2 ^ 32 ∧ s.loadAt Config.origin p = t := by
  rw [State.load]
  split
  next fits => simp only [Option.some.injEq, fits, true_and]
  next large => simp only [reduceCtorEq, large, false_and]

theorem tableBytes_length_le (nbits w : Nat) : (tableBytes nbits w).length ≤ 2 ^ 32 := by
  have length : (tableBytes nbits w).length = 16 := rfl
  omega

/-! ## Placing an instruction (assumption log 8) -/

section
variable (s : State) (nbits w : Nat)

theorem withFetchWord_mem : (s.withFetchWord nbits w).mem = (s.loadAt s.eip (tableBytes nbits w)).mem := by
  simp only [State.withFetchWord]

theorem withFetchWord_chunks : (s.withFetchWord nbits w).chunks = (s.loadAt s.eip (tableBytes nbits w)).chunks := by
  simp only [State.withFetchWord]

theorem withFetchWord_eip : (s.withFetchWord nbits w).eip = s.eip := by
  simp only [State.withFetchWord, State.loadAt_eip]

/-- The bytes fetched after placing a word are the word's. -/
theorem withFetchWord_fetchBytes : (s.withFetchWord nbits w).fetchBytes = tableBytes nbits w := by
  rw [State.fetchBytes, withFetchWord_eip, State.readBytes_congr (withFetchWord_mem s nbits w)]
  exact State.loadAt_readBytes s s.eip _ (tableBytes_length_le nbits w)

end

/-! ## The statements about the host's operations -/

/-- Settles O12: a register reset and a placing end without a condition, and a load keeps latch and condition; the memory is
kept, or loaded. -/
theorem hostOperationsKeepInvariant : Obligations.HostOperationsKeepInvariant := by
  refine fun s inv => ⟨?_, fun p t loaded => ?_, fun nbits w => ?_⟩
  · exact MemoryInv.inv_of_unraised (inv.memoryInv.congr rfl rfl) rfl
  · obtain ⟨fits, rfl⟩ := load_eq_some_iff.mp loaded
    refine (inv.memoryInv.loadAt _ p fits).inv ?_
    rw [State.loadAt_halted, State.loadAt_fatal]
    exact inv.status
  · have laid := inv.memoryInv.loadAt s.eip _ (tableBytes_length_le nbits w)
    exact MemoryInv.inv_of_unraised (laid.congr (withFetchWord_mem s nbits w) (withFetchWord_chunks s nbits w)) rfl

/-- Settles O14: the placed machine runs, and the bytes at its `eip` are those that the word decodes from. -/
theorem placedWordIsTheNextInstruction : Obligations.PlacedWordIsTheNextInstruction := by
  intro s nbits w i decoded
  rw [decodeTableWord] at decoded
  split at decoded
  next j rest h =>
    obtain rfl := Option.some.inj decoded
    exact stepRunsDecodedInstruction _ j rest rfl (withFetchWord_fetchBytes s nbits w ▸ h)
  next => cases decoded

end Sys2Proof.Machine
end

section
/-! SUPPORT. Assembled programs (47_assembler.md R202 to R213): the line of a statement has the length that pass 1 counts and
holds well-formed instructions only; pass 1 records where a label stands; and the image of a program decodes to its lines. -/

namespace Sys2Proof.Machine

/-! ## Lines of a given length -/

/-- The list holds well-formed instructions, `n` bytes in all. -/
structure EncodesTo (n : Nat) (is : List Instr) : Prop where
  wf : ∀ i ∈ is, i.wellFormed = true
  length : (is.map Instr.length).sum = n

theorem EncodesTo.append {n m : Nat} {is js : List Instr} (first : EncodesTo n is) (second : EncodesTo m js) :
    EncodesTo (n + m) (is ++ js) where
  wf i mem := (List.mem_append.mp mem).elim (first.wf i) (second.wf i)
  length := by rw [List.map_append, List.sum_append, first.length, second.length]

theorem length_flatMap_encodeBytes (is : List Instr) : (is.flatMap encodeBytes).length = (is.map Instr.length).sum := by
  simp only [List.length_flatMap, encodeBytes_length_eq]

/-- A line of one instruction: if `r` is a line, it is one well-formed instruction of `n` bytes. -/
def SingleLine (n : Nat) (r : Except AssemblyError (List Instr)) : Prop :=
  ∀ is, r = .ok is → ∃ i : Instr, is = [i] ∧ i.wellFormed = true ∧ i.length = n

/-- If `r` is a line, it is one of well-formed instructions, `n` bytes in all. -/
def LineOfLength (n : Nat) (r : Except AssemblyError (List Instr)) : Prop := ∀ is, r = .ok is → EncodesTo n is

section
variable {n : Nat}

theorem SingleLine.error (e : AssemblyError) : SingleLine n (.error e) := fun _ h => nomatch h

theorem LineOfLength.error (e : AssemblyError) : LineOfLength n (.error e) := fun _ h => nomatch h

theorem SingleLine.ok {i : Instr} (good : i.wellFormed = true ∧ i.length = n) : SingleLine n (.ok [i]) :=
  fun _ h => ⟨i, (Except.ok.inj h).symm, good⟩

theorem LineOfLength.of_single {r : Except AssemblyError (List Instr)} (single : SingleLine n r) : LineOfLength n r := by
  intro is h
  obtain ⟨i, rfl, wf, length⟩ := single is h
  exact ⟨fun j mem => List.mem_singleton.mp mem ▸ wf, by rw [List.map_singleton, List.sum_singleton, length]⟩

theorem withNumber_single {m : Nat} {f : Word → Instr} (good : ∀ v, (f v).wellFormed = true ∧ (f v).length = n) :
    SingleLine n (withNumber m f) := by
  unfold withNumber
  split
  next v _ => exact .ok (good v)
  next => exact .error _

theorem targetLine_single {table : LabelTable} {off : Nat} {f : Word → Instr} {target : Operand}
    (good : ∀ v, (f v).wellFormed = true ∧ (f v).length = n) : SingleLine n (targetLine table off f target) := by
  unfold targetLine
  split
  next v _ => exact .ok (good v)
  next => exact .error _

theorem oneOperandLine_single {imm : Word → Instr} {reg : RegOperand → Instr} {src : Operand}
    (good : ∀ v, (imm v).wellFormed = true ∧ (imm v).length = n)
    (good' : ∀ r, (reg (.reg r)).wellFormed = true ∧ (reg (.reg r)).length = n) :
    SingleLine n (oneOperandLine imm reg src) := by
  unfold oneOperandLine
  split
  next => exact withNumber_single good
  next r => exact .ok (good' r)
  next => exact .error _

theorem twoFormLine_single {imm : RegOperand → Word → Instr} {reg : RegOperand → RegOperand → Instr} {dst src : Operand}
    (good : ∀ d v, (imm (.reg d) v).wellFormed = true ∧ (imm (.reg d) v).length = n)
    (good' : ∀ d r, (reg (.reg d) (.reg r)).wellFormed = true ∧ (reg (.reg d) (.reg r)).length = n) :
    SingleLine n (twoFormLine imm reg dst src) := by
  unfold twoFormLine
  split
  next d _ => exact withNumber_single (good d)
  next d r => exact .ok (good' d r)
  next => exact .error _

end

/-- The displaced-address expansion puts instructions of 8, 12 and 8 bytes around its access (R213). -/
theorem expandDisplaced_encodesTo {op : Instr} (r : Reg) (sign : Sign) (v : Word) (wf : op.wellFormed = true)
    (length : op.length = 16) : EncodesTo 44 (expandDisplaced r sign v op) where
  wf := List.all_eq_true.mp (by cases sign <;> simp only [expandDisplaced, List.all_cons, wf] <;> rfl)
  length := by cases sign <;> simp only [expandDisplaced, List.map_cons, length] <;> rfl

theorem displacedLine_line {op : Except AssemblyError (List Instr)} (single : SingleLine 16 op) (r : Reg) (sign : Sign)
    (m : Nat) : LineOfLength 44 (displacedLine r sign m op) := by
  unfold displacedLine
  split
  next => exact .error _
  next => exact .error _
  next v is _ =>
    obtain ⟨i, rfl, wf, length⟩ := single is rfl
    rintro _ ⟨⟩
    rw [List.flatMap_singleton]
    exact expandDisplaced_encodesTo r sign v wf length

theorem moveLine_line (dst src : Operand) : LineOfLength (Stmt.move dst src).length (moveLine dst src) := by
  unfold moveLine
  split
  next => exact .of_single (withNumber_single fun _ => ⟨rfl, rfl⟩)
  next => exact .of_single (.ok ⟨rfl, rfl⟩)
  next => exact .of_single (.ok ⟨rfl, rfl⟩)
  next => exact .of_single (withNumber_single fun _ => ⟨rfl, rfl⟩)
  next => exact .of_single (.ok ⟨rfl, rfl⟩)
  next => exact displacedLine_line (.ok ⟨rfl, rfl⟩) _ _ _
  next => exact displacedLine_line (withNumber_single fun _ => ⟨rfl, rfl⟩) _ _ _
  next => exact displacedLine_line (.ok ⟨rfl, rfl⟩) _ _ _
  next => exact .error _

theorem compareLine_line (a b : Operand) : LineOfLength (Stmt.compare a b).length (compareLine a b) := by
  unfold compareLine
  split
  next => exact .of_single (withNumber_single fun _ => ⟨rfl, rfl⟩)
  next => exact .of_single (.ok ⟨rfl, rfl⟩)
  next => exact .of_single (.ok ⟨rfl, rfl⟩)
  next => exact displacedLine_line (.ok ⟨rfl, rfl⟩) _ _ _
  next => exact .error _

/-- Every line has the length that pass 1 counts (R205) and holds well-formed instructions only. -/
theorem Stmt.line_line (table : LabelTable) (off : Nat) (st : Stmt) : LineOfLength st.length (st.line table off) := by
  cases st with
  | labelDef => rintro _ ⟨⟩; exact ⟨fun _ mem => absurd mem List.not_mem_nil, rfl⟩
  | jump k target => exact .of_single (targetLine_single (by cases k <;> exact fun _ => ⟨rfl, rfl⟩))
  | call target => exact .of_single (targetLine_single fun _ => ⟨rfl, rfl⟩)
  | move dst src => exact moveLine_line dst src
  | compare a b => exact compareLine_line a b
  | sum op dst src | bitwise op dst src | shift op dst src =>
    cases op <;> exact .of_single (twoFormLine_single (fun _ _ => ⟨rfl, rfl⟩) (fun _ _ => ⟨rfl, rfl⟩))
  | mulDiv op src => cases op <;> exact .of_single (oneOperandLine_single (fun _ => ⟨rfl, rfl⟩) (fun _ => ⟨rfl, rfl⟩))
  | push src => exact .of_single (oneOperandLine_single (fun _ => ⟨rfl, rfl⟩) (fun _ => ⟨rfl, rfl⟩))
  | negate dst | pop dst =>
    cases dst with
    | reg => exact .of_single (.ok ⟨rfl, rfl⟩)
    | num | addr | addrDisp | label | rel => exact .error _
  | interrupt n =>
    cases n with
    | num => exact .of_single (withNumber_single fun _ => ⟨rfl, rfl⟩)
    | reg | addr | addrDisp | label | rel => exact .error _
  | ret | nop | hlt => exact .of_single (.ok ⟨rfl, rfl⟩)
  | other => exact .error _

/-- Settles O55: the line of a statement, where it has one, is as long as pass 1 counts. -/
theorem passesAgreeOnStatementLengths : Obligations.PassesAgreeOnStatementLengths := by
  intro table off st is h
  rw [length_flatMap_encodeBytes]
  exact (st.line_line table off is h).length

/-! ## Pass 1 -/

theorem LabelTable.find_append (t u : LabelTable) (name : String) :
    LabelTable.find (t ++ u) name = (t.find name).or (u.find name) := by
  induction t with
  | nil => rfl
  | cons e t ih =>
    rw [List.cons_append, LabelTable.find, LabelTable.find, ih]
    split <;> rfl

/-- One statement of pass 1: the offset moves by its length, and a label definition adds the entry of its own address, the
name being new (R203, R209). -/
theorem passOne_cons {off : Nat} {t t' : LabelTable} {st : Stmt} {ss : List Stmt} (h : passOne off t (st :: ss) = .ok t') :
    ∃ added, passOne (off + st.length) (t ++ added) ss = .ok t' ∧
      ∀ name, st = .labelDef name → t.find name = none ∧ added = [(name, Config.origin.toNat + off)] := by
  cases st with
  | labelDef name =>
    rw [passOne] at h
    split at h
    next => cases h
    next fresh =>
      refine ⟨_, h, ?_⟩
      rintro _ ⟨⟩
      exact ⟨fresh, rfl⟩
  | _ => exact ⟨[], by rw [List.append_nil]; exact h, fun name same => nomatch same⟩

/-- Pass 1 keeps every entry. -/
theorem find_of_passOne {off a : Nat} {t t' : LabelTable} {name : String} {ss : List Stmt} (h : passOne off t ss = .ok t')
    (recorded : t.find name = some a) : t'.find name = some a := by
  induction ss generalizing off t with
  | nil => exact Except.ok.inj h ▸ recorded
  | cons st ss ih =>
    obtain ⟨added, h, -⟩ := passOne_cons h
    exact ih h (by rw [LabelTable.find_append, recorded, Option.some_or])

/-- A label stands past the statements before it. -/
theorem find_of_passOne_labelDef {off : Nat} {t t' : LabelTable} {name : String} {pre post : List Stmt}
    (h : passOne off t (pre ++ .labelDef name :: post) = .ok t') :
    t'.find name = some (Config.origin.toNat + off + (pre.map Stmt.length).sum) := by
  induction pre generalizing off t with
  | nil =>
    obtain ⟨added, h, entry⟩ := passOne_cons h
    obtain ⟨fresh, rfl⟩ := entry name rfl
    refine find_of_passOne h ?_
    rw [LabelTable.find_append, fresh, Option.none_or, LabelTable.find, if_pos rfl]
    rfl
  | cons st pre ih =>
    obtain ⟨added, h, -⟩ := passOne_cons h
    rw [ih h, List.map_cons, List.sum_cons, Nat.add_assoc, Nat.add_assoc, Nat.add_assoc]

/-- Settles O56: pass 1 starts at offset 0 with no entry. -/
theorem labelsNameTheNextEmittedByte : Obligations.LabelsNameTheNextEmittedByte := fun _ _ _ _ h =>
  find_of_passOne_labelDef h

/-! ## The image -/

theorem passTwo_line (table : LabelTable) (off : Nat) (ss : List Stmt) :
    LineOfLength (ss.map Stmt.length).sum (passTwo table off ss) := by
  induction ss generalizing off with
  | nil => rintro _ ⟨⟩; exact ⟨fun _ mem => absurd mem List.not_mem_nil, rfl⟩
  | cons st ss ih =>
    unfold passTwo
    split
    next => exact .error _
    next is line =>
      split
      next => exact .error _
      next rest lines =>
        rintro _ ⟨⟩
        rw [List.map_cons, List.sum_cons]
        exact (st.line_line table off is line).append (ih _ rest lines)

theorem assembleInstrs_line (ss : List Stmt) : LineOfLength (ss.map Stmt.length).sum (assembleInstrs ss) := by
  unfold assembleInstrs
  split
  next => exact .error _
  next table _ => exact passTwo_line table 0 ss

theorem decodeStream_of_decode {fuel : Nat} {bs rest : List Byte} {i : Instr} {is : List Instr}
    (decoded : decode bs = .ok (i, rest)) (stream : decodeStream fuel rest = .ok is) :
    decodeStream (fuel + 1) bs = .ok (i :: is) := by
  cases bs with
  | nil => cases decoded
  | cons b bs => simp only [decodeStream, decoded, stream]

/-- The encodings of well-formed instructions, one after another, decode to these instructions. -/
theorem decodeStream_flatMap_encodeBytes {fuel : Nat} {is : List Instr} (wf : ∀ i ∈ is, i.wellFormed = true)
    (enough : is.length ≤ fuel) : decodeStream fuel (is.flatMap encodeBytes) = .ok is := by
  induction is generalizing fuel with
  | nil => rw [List.flatMap_nil, decodeStream]
  | cons i is ih =>
    cases fuel with
    | zero => exact absurd enough (Nat.not_succ_le_zero _)
    | succ fuel =>
      rw [List.flatMap_cons]
      exact decodeStream_of_decode (decodeOfEncodeIsIdentity i _ (wf i (.head _)))
        (ih (fun j mem => wf j (.tail _ mem)) (Nat.le_of_succ_le_succ enough))

/-- Every instruction has at least one byte. -/
theorem length_le_sum_length (is : List Instr) : is.length ≤ (is.map Instr.length).sum := by
  have one_le : ∀ n ∈ is.map Instr.length, 1 ≤ n := by
    intro n mem
    obtain ⟨i, -, rfl⟩ := List.mem_map.mp mem
    rw [Instr.length_eq]
    omega
  exact (List.length_map _).symm.trans_le (List.length_le_sum_of_one_le _ one_le)

/-- Settles O58: the lines are well-formed instructions of the counted lengths, and the image is their encodings. -/
theorem assembledImageDecodesToItsLines : Obligations.AssembledImageDecodesToItsLines := by
  intro ss bytes h
  unfold assemble at h
  split at h
  next => cases h
  next is lines =>
    obtain rfl := Except.ok.inj h
    have encodes := assembleInstrs_line ss is lines
    rw [length_flatMap_encodeBytes]
    exact ⟨is, lines, encodes.wf, decodeStream_flatMap_encodeBytes encodes.wf (length_le_sum_length is), encodes.length⟩

end Sys2Proof.Machine
end

section
/-! SUPPORT. The displaced-address expansion (47_assembler.md R213, R215, 70_reset_and_hazards.md R281): its first two
instructions save and move the base, its last two access memory and restore the base. -/

namespace Sys2Proof.Machine

theorem execAll_of_next {i : Instr} {is : List Instr} {s t : State} (h : exec i s = .next t) :
    execAll (i :: is) s = execAll is t := by
  simp only [execAll, h]

/-! ## Saving and moving the base -/

/-- What the expansion has done before its access: the base `r` is on the stack and holds the address `b` now; the state is
otherwise that of `s`, but for `eip` and the carry flag. -/
structure BaseMoved (r : Reg) (b : Word) (s u : State) : Prop where
  base : u.reg r = b
  esp : u.reg .esp = s.reg .esp - 4#32
  top : u.readMem .dword (u.reg .esp) = s.reg r
  others : ∀ q, q ≠ r → q ≠ .esp → u.reg q = s.reg q
  stores : StoresBigEndian (s.reg .esp - 4#32) 4 (s.reg r) s u
  cmpf : u.cmpf = s.cmpf
  eip : u.eip = s.eip + 20#32
  status : SameStatus s u

/-- After a push of the base, writing `b` to it in an instruction of 12 bytes, and any carry, moves it. -/
theorem baseMoved_setReg {r : Reg} (not_esp : r ≠ .esp) (b : Word) (s : State) :
    BaseMoved r b s ((((s.advance 8).pushed (s.reg r)).advance 12).setReg r b) := by
  have pushes := ((s.advance 8).pushed_pushes (s.reg r)).of_advance
  have top := (s.advance 8).pushed_top (s.reg r)
  have eip := (s.advance 8).pushed_eip (s.reg r)
  generalize (s.advance 8).pushed (s.reg r) = p at pushes top eip
  refine ⟨State.reg_setReg_same _ r b, ?_, ?_, fun q other not_esp' => ?_, pushes.stores, pushes.flags.1, ?_, pushes.status⟩
  · rw [State.reg_setReg_ne _ b not_esp.symm, State.advance_reg, pushes.esp]
  · rw [State.reg_setReg_ne _ b not_esp.symm, State.setReg_readMem, State.advance_readMem, State.advance_reg, top]
  · rw [State.reg_setReg_ne _ b other, State.advance_reg, pushes.regs q (List.mem_singleton.not.mpr not_esp')]
  · rw [State.setReg_eip, State.advance_eip, eip, State.advance_eip, BitVec.add_assoc]
    rfl

theorem BaseMoved.setCf {r : Reg} {b : Word} {s u : State} (moved : BaseMoved r b s u) (c : Bool) :
    BaseMoved r b s (u.setCf c) :=
  ⟨moved.base, moved.esp, (State.setCf_readMem u c _ _).trans moved.top, moved.others, moved.stores, moved.cmpf, moved.eip,
    moved.status⟩

theorem narrow_exactSum (a b : Word) : narrow (exactSum a b) = a + b :=
  BitVec.eq_of_toNat_eq ((BitVec.toNat_ofNat _ _).trans (BitVec.toNat_add a b).symm)

section
variable {r : Reg} {s : State}

/-- The expansion begins with a push of the base. -/
theorem execAll_expandDisplaced (room : 4 ≤ (s.reg .esp).toNat) {sign : Sign} {n : Word} {op move : Instr} {u : State}
    (moves : expandDisplaced r sign n op = [.pshr (.reg r), move, op, .pop (.reg r)])
    (moved : exec move ((s.advance 8).pushed (s.reg r)) = .next u) :
    execAll (expandDisplaced r sign n op) s = execAll [op, .pop (.reg r)] u := by
  have pushed : exec (.pshr (.reg r)) s = .next ((s.advance 8).pushed (s.reg r)) := pushOrOverflow_of_room _ room
  rw [moves, execAll_of_next pushed, execAll_of_next moved]

theorem pushed_base (not_esp : r ≠ .esp) : ((s.advance 8).pushed (s.reg r)).reg r = s.reg r :=
  (State.pushed_pushes _ _).regs r (List.mem_singleton.not.mpr not_esp)

/-- With sign `+` the base wraps, and the carry is that of the exact sum (R130, R215). -/
theorem expandDisplaced_plus (room : 4 ≤ (s.reg .esp).toNat) (not_esp : r ≠ .esp) (n : Word) (op : Instr) :
    ∃ u, execAll (expandDisplaced r .plus n op) s = execAll [op, .pop (.reg r)] u ∧ BaseMoved r (s.reg r + n) s u ∧
      (u.cf = true ↔ (s.reg r).toNat + n.toNat > 0xFFFFFFFF) := by
  refine ⟨_, execAll_expandDisplaced room rfl rfl, ?_, ?_⟩
  · rw [State.advance_reg, pushed_base not_esp, writeWithCarry, narrow_exactSum]
    exact (baseMoved_setReg not_esp _ s).setCf _
  · rw [State.advance_reg, pushed_base not_esp]
    exact decide_eq_true_iff

/-- With sign `-` the base saturates at 0, and no flag is written (R132, R215). -/
theorem expandDisplaced_minus (room : 4 ≤ (s.reg .esp).toNat) (not_esp : r ≠ .esp) (n : Word) (op : Instr) :
    ∃ u, execAll (expandDisplaced r .minus n op) s = execAll [op, .pop (.reg r)] u ∧
      BaseMoved r (saturatingSub (s.reg r) n) s u ∧ u.cf = s.cf := by
  refine ⟨_, execAll_expandDisplaced room rfl rfl, ?_, State.pushed_cf _ (s.reg r)⟩
  rw [State.advance_reg, pushed_base not_esp]
  exact baseMoved_setReg not_esp _ s

/-! ## The load and the restored base -/

/-- What the load at `b` and the pop of the base leave: every register as in `s` but a destination other than the base, and
everything else as before the load. -/
structure LoadedAndRestored (d r : Reg) (z : Size) (b : Word) (s u t : State) : Prop where
  loaded : d ≠ r → t.reg d = t.readMem z b
  others : ∀ q, q ≠ d ∨ d = r → t.reg q = s.reg q
  eip : t.eip = s.eip + 44#32
  cmpf : t.cmpf = s.cmpf
  cf : t.cf = u.cf
  stores : StoresBigEndian (s.reg .esp - 4#32) 4 (s.reg r) s t
  status : SameStatus s t

theorem BaseMoved.load_and_restore {b : Word} {u : State} (moved : BaseMoved r b s u) (room : 4 ≤ (s.reg .esp).toNat)
    {d : Reg} (d_not_esp : d ≠ .esp) (z : Size) :
    ∃ t, execAll [.mrva (.reg d) (.size z) (.reg r), .pop (.reg r)] u = .next t ∧ LoadedAndRestored d r z b s u t := by
  have after_load : ((u.advance 16).setReg d (u.readMem z (u.reg r))).reg .esp = s.reg .esp - 4#32 := by
    rw [State.reg_setReg_ne _ _ d_not_esp.symm, State.advance_reg, moved.esp]
  have something : (((u.advance 16).setReg d (u.readMem z (u.reg r))).reg .esp).toNat ≤ 0xFFFFFFFB := by
    have below : (s.reg .esp).toNat < 2 ^ 32 := (s.reg .esp).isLt
    rw [after_load]
    bv_omega
  have top : ((u.advance 16).setReg d (u.readMem z (u.reg r))).readMem .dword (s.reg .esp - 4#32) = s.reg r := by
    rw [State.setReg_readMem, State.advance_readMem, ← moved.esp, moved.top]
  refine ⟨_, (execAll_of_next (exec_mrva_reg d r z u)).trans (execAll_of_next (exec_pop_of_some r something)), ?_⟩
  rw [after_load, top, BitVec.sub_add_cancel, moved.base]
  refine ⟨fun d_not_base => ?_, fun q other => ?_, ?_, moved.cmpf, rfl, moved.stores, moved.status⟩
  · rw [State.reg_setReg_ne _ _ d_not_base, State.reg_setReg_ne _ _ d_not_esp, State.advance_reg, State.reg_setReg_same]
    simp only [State.setReg_readMem, State.advance_readMem]
  · rw [State.reg_setReg]
    split
    next same => rw [same]
    next q_not_base =>
      rw [State.reg_setReg]
      split
      next same => rw [same]
      next q_not_esp =>
        have q_not_d : q ≠ d := other.elim id fun same => same ▸ q_not_base
        rw [State.advance_reg, State.reg_setReg_ne _ _ q_not_d, State.advance_reg, moved.others q q_not_base q_not_esp]
  · simp only [State.setReg_eip, State.advance_eip, moved.eip, BitVec.add_assoc]
    rfl

end

/-! ## The statements -/

/-- Settles O59: the load reads at the moved base, which the pop then restores. -/
theorem displacedLoadReadsOffsetAddress : Obligations.DisplacedLoadReadsOffsetAddress := by
  intro s d r z n room not_esp d_not_base d_not_esp
  have value {t : State} {b : Word} (loaded : t.reg d = t.readMem z b) : (t.reg d).toNat = loadedValue t z b := by
    rw [loaded, State.readMem_toNat]
  have only_d {t u : State} {b : Word} (restored : LoadedAndRestored d r z b s u t) : SameRegsExcept [d] s t :=
    fun q outside => restored.others q (.inl (List.mem_singleton.not.mp outside))
  constructor
  · obtain ⟨u, begun, moved, carry⟩ := expandDisplaced_plus room not_esp n (.mrva (.reg d) (.size z) (.reg r))
    obtain ⟨t, ended, restored⟩ := moved.load_and_restore room d_not_esp z
    exact ⟨t, begun.trans ended, value (restored.loaded d_not_base), only_d restored, restored.cmpf,
      restored.cf ▸ carry, restored.eip, restored.stores, restored.status⟩
  · obtain ⟨u, begun, moved, cf⟩ := expandDisplaced_minus room not_esp n (.mrva (.reg d) (.size z) (.reg r))
    obtain ⟨t, ended, restored⟩ := moved.load_and_restore room d_not_esp z
    exact ⟨t, begun.trans ended, value (restored.loaded d_not_base), only_d restored,
      ⟨restored.cmpf, restored.cf.trans cf⟩, restored.eip, restored.stores, restored.status⟩

/-- Settles O60: the pop writes the base last. -/
theorem displacedLoadIntoBaseIsLost : Obligations.DisplacedLoadIntoBaseIsLost := by
  intro s r z sign n room not_esp
  obtain ⟨u, b, begun, moved⟩ : ∃ u b, execAll (expandDisplaced r sign n (.mrva (.reg r) (.size z) (.reg r))) s =
      execAll [.mrva (.reg r) (.size z) (.reg r), .pop (.reg r)] u ∧ BaseMoved r b s u := by
    cases sign with
    | plus =>
      obtain ⟨u, begun, moved, -⟩ := expandDisplaced_plus room not_esp n _
      exact ⟨u, _, begun, moved⟩
    | minus =>
      obtain ⟨u, begun, moved, -⟩ := expandDisplaced_minus room not_esp n _
      exact ⟨u, _, begun, moved⟩
  obtain ⟨t, ended, restored⟩ := moved.load_and_restore room not_esp z
  obtain ⟨-, unraised, -⟩ := restored.status
  exact ⟨t, begun.trans ended, unraised, fun q _ => restored.others q (.inr rfl)⟩

end Sys2Proof.Machine
end

section
/-! SUPPORT. The program load (70_reset_and_hazards.md R272): the chunk of a load into an empty memory covers every address
that is written, so it stays as it was laid, and its bytes are the buffer. -/

namespace Sys2Proof.Machine

/-! ## Writing inside the chunks -/

/-- `writeByte` on addresses that the chunks cover leaves the chunks (case 1 of R52). -/
theorem State.writeBytes_chunks_of_covered (s : State) (a : Word) (bs : List Byte)
    (covered : ∀ k, k < bs.length → s.chunks.any (·.covers (a + BitVec.ofNat 32 k).toNat)) :
    (s.writeBytes a bs).chunks = s.chunks := by
  induction bs generalizing s a with
  | nil => rfl
  | cons b bs ih =>
    have here : (s.writeByte a b).chunks = s.chunks := by
      have first := covered 0 (Nat.succ_pos _)
      rw [BitVec.add_zero] at first
      exact if_pos first
    refine (ih (s.writeByte a b) (a + 1#32) fun k inside => ?_).trans here
    rw [here, add_one_add_ofNat]
    exact covered (k + 1) (Nat.succ_lt_succ inside)

/-- The chunk of a load covers every address of the buffer, modulo 2^32. -/
theorem loadedChunk_covers (a : Word) {n k : Nat} (fits : n ≤ 2 ^ 32) (inside : k < n) :
    (loadedChunk a n).any (·.covers (a + BitVec.ofNat 32 k).toNat) := by
  have nonempty : n ≠ 0 := Nat.ne_of_gt (Nat.zero_lt_of_lt inside)
  have address : (a + BitVec.ofNat 32 k).toNat = (a.toNat + k) % 2 ^ 32 := by
    rw [BitVec.toNat_add, BitVec.toNat_ofNat, Nat.add_mod_mod]
  have below : a.toNat < 2 ^ 32 := a.isLt
  rw [loadedChunk, if_neg nonempty, List.any_cons, Bool.or_eq_true, Chunk.covers_iff, address]
  exact .inl (by show a.toNat ≤ _ ∧ _ < a.toNat + n ∨ _ < a.toNat + n; omega)

/-! ## Loading -/

theorem State.loadAt_of_chunks {s : State} (a : Word) (bs : List Byte) (chunks : s.chunks ≠ []) :
    s.loadAt a bs = s.writeBytes a bs := by
  rw [State.loadAt, if_neg (List.isEmpty_iff.not.mpr chunks)]

theorem State.loadAt_chunks_of_empty {s : State} (a : Word) (bs : List Byte) (empty : s.chunks = [])
    (fits : bs.length ≤ 2 ^ 32) : (s.loadAt a bs).chunks = loadedChunk a bs.length := by
  rw [State.loadAt, if_pos (List.isEmpty_iff.mpr empty)]
  exact State.writeBytes_chunks_of_covered _ a bs fun _ inside => loadedChunk_covers a fits inside

/-- The bytes of a chunk are those that a read from its base lists. -/
theorem chunkBytes_eq_readBytes (s : State) (a : Word) (n : Nat) :
    chunkBytes s.mem { base := a.toNat, len := n } = s.readBytes a n := by
  rw [chunkBytes, State.readBytes_eq_map]
  refine List.map_congr_left fun k _ => ?_
  rw [State.readByte, BitVec.toNat_add, BitVec.toNat_ofNat, Nat.add_mod_mod]

/-- A load changes the memory and the chunks only. -/
theorem State.loadAt_frame (s : State) (a : Word) (bs : List Byte) :
    SameRegsExcept [] s (s.loadAt a bs) ∧ SameFlags s (s.loadAt a bs) ∧ SameStatus s (s.loadAt a bs) := by
  rw [State.loadAt_eq]
  exact ⟨fun _ _ => State.writeBytes_reg _ _ _ _, ⟨State.writeBytes_cmpf _ _ _, State.writeBytes_cf _ _ _⟩,
    State.writeBytes_halted _ _ _, State.writeBytes_fatal _ _ _, State.writeBytes_console _ _ _,
    State.writeBytes_freeCount _ _ _⟩

/-- Settles O54: a load is `writeBytes` at ORIGIN, into an empty memory after laying the one chunk that covers it all. -/
theorem loadPlacesTheBufferAtOrigin : Obligations.LoadPlacesTheBufferAtOrigin := by
  refine fun s p => ⟨fun large => if_neg (Nat.not_le.mpr large), fun fits => ?_⟩
  obtain ⟨regs, flags, status⟩ := s.loadAt_frame 0x80000000#32 p
  refine ⟨_, load_eq_some_iff.mpr ⟨fits, rfl⟩, fun k inside => ?_, fun x outside => ?_, State.loadAt_eip _ _ _, regs, flags,
    status, fun empty nonempty => ?_, fun empty nothing => ?_, State.loadAt_of_chunks _ p⟩
  · rw [State.loadAt_eq]
    exact State.readByte_writeBytes_offset _ _ p fits inside
  · rw [State.loadAt_eq]
    exact State.readByte_writeBytes_ne _ _ x p outside
  · rw [State.storedChunks, State.loadAt_chunks_of_empty _ p empty fits, loadedChunk, if_neg (Nat.ne_of_gt nonempty),
      List.map_singleton, chunkBytes_eq_readBytes, State.loadAt_readBytes s _ p fits]
    rfl
  · rw [State.storedChunks, State.loadAt_chunks_of_empty _ p empty fits, nothing]
    rfl

end Sys2Proof.Machine
end

section
/-! SUPPORT. The refinement of the chunk controller (20_memory.md R51 to R53): how the bytes of one chunk answer to a write, and
from it, by the three cases of R52, that the chunks with the bytes read from the memory are the controller's chunks. -/

namespace Sys2Proof.Machine

/-! ## One chunk -/

/-- A chunk with its bytes, as the host sees it. -/
def Chunk.stored (m : Memory) (c : Chunk) : StoredChunk := { base := c.base, bytes := chunkBytes m c }

theorem State.storedChunks_eq (s : State) : s.storedChunks = s.chunks.map (Chunk.stored s.mem) := rfl

@[simp] theorem chunkBytes_length (m : Memory) (c : Chunk) : (chunkBytes m c).length = c.len := by
  rw [chunkBytes, List.length_map, List.length_range]

@[simp] theorem Chunk.stored_covers (m : Memory) (c : Chunk) (a : Nat) : (c.stored m).covers a = c.covers a := by
  rw [StoredChunk.covers, Chunk.covers, Chunk.stored, chunkBytes_length]

/-- The base of the chunk is an address, and no address lies in it twice. -/
def Chunk.Fits (c : Chunk) : Prop := c.base < 2 ^ 32 ∧ c.len ≤ 2 ^ 32

section
variable {m : Memory} {c : Chunk} {a : Nat}

/-- The byte at the address's index is the one at the address. -/
theorem Chunk.Fits.rangeIndex_spec (fits : c.Fits) (address : a < 2 ^ 32) (covered : c.covers a = true) :
    rangeIndex c.base a < c.len ∧ (c.base + rangeIndex c.base a) % 2 ^ 32 = a := by
  obtain ⟨base, len⟩ := fits
  rw [Chunk.covers_iff] at covered
  rw [rangeIndex]
  split <;> omega

/-- A byte of the chunk at the address `a` stands at the index of `a`. -/
theorem Chunk.Fits.eq_rangeIndex (fits : c.Fits) {j : Nat} (inside : j < c.len) (same : (c.base + j) % 2 ^ 32 = a) :
    c.covers a = true ∧ j = rangeIndex c.base a := by
  obtain ⟨base, len⟩ := fits
  rw [Chunk.covers_iff, rangeIndex]
  split <;> omega

/-- The byte that a chunk holds for an address is the memory's (R51). -/
theorem chunkBytes_getD (fits : c.Fits) (address : a < 2 ^ 32) (covered : c.covers a = true) :
    (chunkBytes m c).getD (rangeIndex c.base a) 0#8 = m.read a := by
  obtain ⟨inside, spelled⟩ := fits.rangeIndex_spec address covered
  rw [List.getD_eq_getElem _ _ (inside.trans_eq (chunkBytes_length m c).symm)]
  simp only [chunkBytes, List.getElem_map, List.getElem_range, spelled]

/-- A write into a chunk sets the byte at the address's index (case 1 of R52). -/
theorem chunkBytes_write_of_covered (fits : c.Fits) (address : a < 2 ^ 32) (b : Byte) (covered : c.covers a = true) :
    chunkBytes (m.write a b) c = (chunkBytes m c).set (rangeIndex c.base a) b := by
  obtain ⟨-, spelled⟩ := fits.rangeIndex_spec address covered
  refine List.ext_getElem (by rw [List.length_set, chunkBytes_length, chunkBytes_length]) fun j inside _ => ?_
  rw [chunkBytes_length] at inside
  simp only [List.getElem_set, chunkBytes, List.getElem_map, List.getElem_range]
  split
  next same => rw [← same, spelled, Memory.read_write_same]
  next other => exact Memory.read_write_ne b m fun same => other (fits.eq_rangeIndex inside same).2.symm

/-- A write outside a chunk leaves its bytes. -/
theorem chunkBytes_write_of_uncovered (fits : c.Fits) (b : Byte) (uncovered : c.covers a ≠ true) :
    chunkBytes (m.write a b) c = chunkBytes m c := by
  refine List.map_congr_left fun j mem => Memory.read_write_ne b m fun same => uncovered ?_
  exact (fits.eq_rangeIndex (List.mem_range.mp mem) same).1

/-- A chunk of one byte. -/
theorem chunkBytes_write_single (address : a < 2 ^ 32) (b : Byte) :
    chunkBytes (m.write a b) { base := a, len := 1 } = [b] := by
  have first : (m.write a b).read ((a + 0) % 2 ^ 32) = b := by
    rw [Nat.add_zero, Nat.mod_eq_of_lt address, Memory.read_write_same]
  exact congrArg (fun x => [x]) first

/-- A chunk grown down to `a` begins with the byte written there, then the zeros of the gap (case 2 of R52). -/
theorem chunkBytes_write_grown (fits : c.Fits) (b : Byte) (below : a < c.base) (uncovered : c.covers a ≠ true)
    (gap : ∀ x, a < x → x < c.base → m.read x = 0#8) :
    chunkBytes (m.write a b) { base := a, len := c.len + (c.base - a) } =
      b :: (List.replicate (c.base - a - 1) 0#8 ++ chunkBytes m c) := by
  obtain ⟨g, base⟩ : ∃ g, c.base = a + (1 + g) := ⟨c.base - a - 1, by omega⟩
  have base_lt : c.base < 2 ^ 32 := fits.1
  have zeros : (List.range g).map (fun i => (m.write a b).read ((a + (1 + i)) % 2 ^ 32)) = List.replicate g 0#8 := by
    refine (List.map_eq_replicate_iff.mpr fun i mem => ?_).trans (by rw [List.length_range])
    have inside := List.mem_range.mp mem
    rw [Nat.mod_eq_of_lt (by omega), Memory.read_write_ne b m (by omega), gap _ (by omega) (by omega)]
  have rest : (List.range c.len).map (fun i => (m.write a b).read ((a + (1 + (g + i))) % 2 ^ 32)) = chunkBytes m c := by
    rw [← chunkBytes_write_of_uncovered fits b uncovered, chunkBytes]
    refine List.map_congr_left fun i _ => ?_
    rw [base, ← Nat.add_assoc, ← Nat.add_assoc, ← Nat.add_assoc]
  have length : c.len + (c.base - a) = 1 + (g + c.len) := by omega
  have zeros_length : c.base - a - 1 = g := by omega
  rw [chunkBytes, length, zeros_length, List.range_add, List.range_add]
  simp only [List.map_append, List.map_map, Function.comp_def, zeros, rest]
  exact congrArg (· ++ (List.replicate g 0#8 ++ chunkBytes m c)) (chunkBytes_write_single (by omega) b)

end

/-! ## The chunks in order -/

section
variable {m : Memory} {a : Nat} {cs : List Chunk}

theorem map_stored_write_of_uncovered (fits : ∀ c ∈ cs, c.Fits) (b : Byte) (uncovered : ∀ c ∈ cs, c.covers a ≠ true) :
    cs.map (Chunk.stored (m.write a b)) = cs.map (Chunk.stored m) :=
  List.map_congr_left fun c mem => by
    rw [Chunk.stored, Chunk.stored, chunkBytes_write_of_uncovered (fits c mem) b (uncovered c mem)]

/-- Case 1 of R52: the one chunk that covers the address is mutated. -/
theorem controllerMutate_map_stored (fits : ∀ c ∈ cs, c.Fits) (address : a < 2 ^ 32) (b : Byte)
    (apart : cs.Pairwise fun c d => c.covers a = true → d.covers a ≠ true) :
    controllerMutate a b (cs.map (Chunk.stored m)) = cs.map (Chunk.stored (m.write a b)) := by
  induction cs with
  | nil => rfl
  | cons c cs ih =>
    obtain ⟨head_fits, tail_fits⟩ := List.forall_mem_cons.mp fits
    obtain ⟨head_apart, tail_apart⟩ := List.pairwise_cons.mp apart
    rw [List.map_cons, controllerMutate, Chunk.stored_covers, List.map_cons]
    split
    next covered =>
      rw [map_stored_write_of_uncovered tail_fits b fun d mem => head_apart d mem covered, Chunk.stored, Chunk.stored,
        chunkBytes_write_of_covered head_fits address b covered]
    next uncovered =>
      rw [ih tail_fits tail_apart, Chunk.stored, Chunk.stored, chunkBytes_write_of_uncovered head_fits b uncovered]

/-- Cases 2 and 3 of R52: the bytes between the address and the chunks above it are zero. -/
theorem controllerPlace_map_stored (fits : ∀ c ∈ cs, c.Fits) (address : a < 2 ^ 32) (b : Byte)
    (uncovered : ∀ c ∈ cs, c.covers a ≠ true) (rising : cs.Pairwise fun c d => c.base ≤ d.base)
    (gap : ∀ x, a < x → (∀ c ∈ cs, a < c.base → x < c.base) → m.read x = 0#8) :
    controllerPlace a b (cs.map (Chunk.stored m)) = (placeChunk a cs).map (Chunk.stored (m.write a b)) := by
  induction cs with
  | nil => simp only [List.map_nil, controllerPlace, placeChunk, List.map_cons, Chunk.stored, chunkBytes_write_single address]
  | cons c cs ih =>
    obtain ⟨head_fits, tail_fits⟩ := List.forall_mem_cons.mp fits
    obtain ⟨head_uncovered, tail_uncovered⟩ := List.forall_mem_cons.mp uncovered
    obtain ⟨head_rising, tail_rising⟩ := List.pairwise_cons.mp rising
    have same_tail := map_stored_write_of_uncovered (m := m) tail_fits b tail_uncovered
    have same_head := chunkBytes_write_of_uncovered (m := m) head_fits b head_uncovered
    rw [List.map_cons, controllerPlace, placeChunk]
    show (if c.base ≤ a then _ else if c.base - a ≤ Config.chunkThreshold then _ else _) = _
    split
    next before =>
      have tail_gap : ∀ x, a < x → (∀ d ∈ cs, a < d.base → x < d.base) → m.read x = 0#8 := fun x above between =>
        gap x above (List.forall_mem_cons.mpr ⟨fun after => absurd before (Nat.not_le.mpr after), between⟩)
      rw [ih tail_fits tail_uncovered tail_rising tail_gap, List.map_cons, Chunk.stored, Chunk.stored, same_head]
    next after =>
      have below : a < c.base := Nat.lt_of_not_le after
      split
      next near =>
        have head_gap : ∀ x, a < x → x < c.base → m.read x = 0#8 := fun x above inside =>
          gap x above (List.forall_mem_cons.mpr ⟨fun _ => inside, fun d mem _ => inside.trans_le (head_rising d mem)⟩)
        rw [List.map_cons, same_tail, Chunk.stored, Chunk.stored,
          chunkBytes_write_grown head_fits b below head_uncovered head_gap]
      next far =>
        rw [List.map_cons, List.map_cons, same_tail, Chunk.stored, Chunk.stored, Chunk.stored, same_head,
          chunkBytes_write_single address]

/-- The scan of R51 finds the memory's byte, where an address outside the chunks reads as zero. -/
theorem controllerRead_map_stored (fits : ∀ c ∈ cs, c.Fits) (address : a < 2 ^ 32)
    (outside : (∀ c ∈ cs, c.covers a ≠ true) → m.read a = 0#8) : controllerRead a (cs.map (Chunk.stored m)) = m.read a := by
  induction cs with
  | nil => exact (outside fun _ mem => absurd mem List.not_mem_nil).symm
  | cons c cs ih =>
    obtain ⟨head_fits, tail_fits⟩ := List.forall_mem_cons.mp fits
    rw [List.map_cons, controllerRead, Chunk.stored_covers]
    split
    next covered => exact chunkBytes_getD head_fits address covered
    next uncovered => exact ih tail_fits fun none => outside (List.forall_mem_cons.mpr ⟨uncovered, none⟩)

end

/-! ## What the invariant gives -/

section
variable {s : State}

theorem State.Inv.fits (inv : s.Inv) : ∀ c ∈ s.chunks, c.Fits := by
  intro c mem
  obtain ⟨base, -, ends⟩ := inv.chunks.2 c mem
  exact ⟨base, by have := ends c mem; omega⟩

/-- An address outside the chunks reads as zero (R35). -/
theorem State.Inv.read_eq_zero (inv : s.Inv) {a : Nat} (outside : ∀ c ∈ s.chunks, c.covers a ≠ true) :
    s.mem.read a = 0#8 := by
  refine Memory.read_eq_zero fun cell listed same => ?_
  obtain ⟨c, mem, covered⟩ := List.any_eq_true.mp (inv.cover cell listed)
  exact outside c mem (same ▸ covered)

/-- No address lies in two chunks (R53). -/
theorem State.Inv.apart (inv : s.Inv) (a : Nat) :
    s.chunks.Pairwise fun c d => c.covers a = true → d.covers a ≠ true := by
  refine inv.chunks.1.imp_of_mem fun {c d} c_mem d_mem le covered covered' => ?_
  obtain ⟨d_base, -, d_ends⟩ := inv.chunks.2 d d_mem
  have wraps := d_ends c c_mem
  rw [Chunk.covers_iff] at covered covered'
  omega

theorem State.Inv.rising (inv : s.Inv) : s.chunks.Pairwise fun c d => c.base ≤ d.base :=
  inv.chunks.1.imp fun le => (Nat.le_add_right _ _).trans le

/-- From an address outside the chunks up to the chunks above it the memory is zero. -/
theorem State.Inv.gap (inv : s.Inv) {a : Nat} (uncovered : ∀ c ∈ s.chunks, c.covers a ≠ true) (x : Nat) (above : a < x)
    (between : ∀ c ∈ s.chunks, a < c.base → x < c.base) : s.mem.read x = 0#8 := by
  refine inv.read_eq_zero fun c mem covered => uncovered c mem ?_
  have bounded := between c mem
  rw [Chunk.covers_iff] at covered ⊢
  omega

end

/-- Settles O31: a write hits the one chunk that covers the address, or none covers it and it is placed; a read is the scan. -/
theorem memoryRefinesChunkController : Obligations.MemoryRefinesChunkController := by
  refine fun s a b inv => ⟨?_, ?_⟩
  · rw [State.storedChunks_eq, State.storedChunks_eq, State.writeByte_mem, State.writeByte_chunks, touchChunk, controllerWrite,
      List.any_map]
    simp only [Function.comp_def, Chunk.stored_covers]
    split
    next hit => exact (controllerMutate_map_stored inv.fits a.isLt b (inv.apart a.toNat)).symm
    next miss =>
      have uncovered : ∀ c ∈ s.chunks, c.covers a.toNat ≠ true := fun c mem covered =>
        miss (List.any_eq_true.mpr ⟨c, mem, covered⟩)
      exact (controllerPlace_map_stored inv.fits a.isLt b uncovered inv.rising (inv.gap uncovered)).symm
  · rw [State.storedChunks_eq, controllerRead_map_stored inv.fits a.isLt inv.read_eq_zero, State.readByte]

end Sys2Proof.Machine
end
